-- ==== Sys2Proof/Word.lean ====
section
/-! DEFINITION. The bit-vector types of the spec (00_scope.md R8, R11): every value of the block is an
unsigned bit vector of a stated width, bit 0 least significant. `v[hi:lo]` is `v.extractLsb' lo (hi-lo+1)`. -/

namespace Sys2Proof

/-- 8 bits: ACC, a CRC remainder, a frame byte, a subaddress (R8). -/
abbrev Byte := BitVec 8

/-- 16 bits: a tag, a device register, a field value, a mask, `RESULT` (R8). -/
abbrev Half := BitVec 16

/-- The command word `W[63:0]` (`CMD_WIDTH` = 64, R10, R61). -/
abbrev Command := BitVec 64

/-- The response word `RSP[31:0]` (`RSP_WIDTH` = 32, R10, R27). -/
abbrev Rsp := BitVec 32

/-- A 7-bit bus address (R9, R42). -/
abbrev BusAddr := BitVec 7

end Sys2Proof
end

