-- ==== Sys2Proof/Config.lean ====
section
/-! DEFINITION. The parameters of 00_scope.md R10: those the model fixes at the value shown, the two policies a
model takes as an argument, and the free values of the transport's outcomes (93_implementation_defined.md K7). -/

namespace Sys2Proof

/-- The transport's status (K4): 0 means success, every other value is platform-defined.
DESIGN CHOICE (log entry 6), safe: any integer, since the host only compares it with 0 and passes it on. -/
abbrev Status := Int

/-- Names one of the two functions a handle holds, or the opaque configuration value it holds (K5, R120).
DESIGN CHOICE (log entry 6), safe: a token that is only passed on. -/
abbrev Token := Nat

namespace Config

/-- `ACC_RESET` (R10, R24). -/
def accReset : Byte := 0x00#8

/-- `MISMATCH_VALUE` (R10; K3: a claim should rely only on its not being 0; log entry 4). -/
def mismatchValue : Half := 0x0001#16

/-- The status of the `n`-th transport outcome when no reply is listed for it: a free value (K7, log entry 7). -/
opaque freeStatus : Nat → Status

/-- The data word of the `n`-th transport outcome when no reply is listed for it: a free value (K7, log entry 7). -/
opaque freeData : Nat → Half

/-- The PEC byte received with the `n`-th transport outcome when no reply is listed for it: a free value (K7, K12, log entry 7). -/
opaque freePec : Nat → Byte

end Config

/-- What a model does with a reserved command word: R75's report, or the fault of K11. -/
inductive ReservedPolicy where
  | report
  | fault
  deriving DecidableEq, Repr

/-- `INVALID_DESCRIPTOR_POLICY` (R10, K2): compute by the rules, or treat a step with `DESC_ERR` as a fault. -/
inductive DescriptorPolicy where
  | compute
  | fault
  deriving DecidableEq, Repr

/-- The two policies a model takes as an argument. -/
structure Policy where
  reserved   : ReservedPolicy
  descriptor : DescriptorPolicy
  deriving DecidableEq, Repr

/-- The machine's own policy: what the rules R75 and R30 say the block does (log entries 2 and 3). -/
def Config.policy : Policy := { reserved := .report, descriptor := .compute }

/-- The policy of the proofs' `fault` readings (K2, K11). -/
def Config.strictPolicy : Policy := { reserved := .fault, descriptor := .fault }

end Sys2Proof
end

