-- ==== Sys2Proof/Syntax.lean ====
section
/-! DEFINITION. The sixteen commands (30_encoding.md R72; opcode_table.json), their formats and operands (R64), and
the assembler's form of a command (R77). -/

namespace Sys2Proof

/-- One constructor per row of opcode_table.json, its operands at exactly the widths of R64; the byte PEC
operations carry the 8 bits of `data` they read (R48, R146). Every `Instr` is well formed by its type. -/
inductive Instr where
  /-- ENCODE (R91). -/
  | encodeDesc (offsetIn : BitVec 4) (sizeIn : BitVec 5) (subaddrIn : Byte)
  /-- DEC_SUBADDR (R92). -/
  | decSubaddr (tag : Half)
  /-- DEC_SIZE (R93). -/
  | decSize (tag : Half)
  /-- DEC_OFFSET (R94). -/
  | decOffset (tag : Half)
  /-- MASK (R95). -/
  | mask (tag : Half)
  /-- FIELD_MERGE (R111). -/
  | fieldMerge (tag regIn value : Half)
  /-- FIELD_EXTRACT (R113). -/
  | fieldExtract (tag regIn : Half)
  /-- CRC8 (R141). -/
  | crc8 (din remIn : Byte)
  /-- ACC_CLEAR (R143). -/
  | accClear
  /-- ACC_UPDATE (R144). -/
  | accUpdate (din : Byte)
  /-- PEC_WRITE_BYTE (R146). -/
  | pecWriteByte (addr : BusAddr) (cmd data : Byte)
  /-- PEC_WRITE_WORD (R147). -/
  | pecWriteWord (addr : BusAddr) (cmd : Byte) (data : Half)
  /-- PEC_READ_BYTE (R148). -/
  | pecReadByte (addr : BusAddr) (cmd data : Byte)
  /-- PEC_READ_WORD (R149). -/
  | pecReadWord (addr : BusAddr) (cmd : Byte) (data : Half)
  /-- PEC_READ_BYTE_TEST (R150). -/
  | pecReadByteTest (addr : BusAddr) (cmd data pecIn : Byte)
  /-- PEC_READ_WORD_TEST (R151). -/
  | pecReadWordTest (addr : BusAddr) (cmd : Byte) (data : Half) (pecIn : Byte)
  deriving DecidableEq, Repr

/-- The mnemonics of R72. -/
inductive Mnemonic where
  | encodeDesc | decSubaddr | decSize | decOffset | mask | fieldMerge | fieldExtract | crc8
  | accClear | accUpdate | pecWriteByte | pecWriteWord | pecReadByte | pecReadWord
  | pecReadByteTest | pecReadWordTest
  deriving DecidableEq, Repr

/-- Which mnemonic an instruction has. -/
def Instr.mnemonic : Instr → Mnemonic
  | .encodeDesc _ _ _ => .encodeDesc
  | .decSubaddr _ => .decSubaddr
  | .decSize _ => .decSize
  | .decOffset _ => .decOffset
  | .mask _ => .mask
  | .fieldMerge _ _ _ => .fieldMerge
  | .fieldExtract _ _ => .fieldExtract
  | .crc8 _ _ => .crc8
  | .accClear => .accClear
  | .accUpdate _ => .accUpdate
  | .pecWriteByte _ _ _ => .pecWriteByte
  | .pecWriteWord _ _ _ => .pecWriteWord
  | .pecReadByte _ _ _ => .pecReadByte
  | .pecReadWord _ _ _ => .pecReadWord
  | .pecReadByteTest _ _ _ _ => .pecReadByteTest
  | .pecReadWordTest _ _ _ _ => .pecReadWordTest

/-- The formats of R64. -/
inductive Format where
  | E | T | M | X | C | U | N | P | PT
  deriving DecidableEq, Repr

/-- The operand names of R64. -/
inductive OperandName where
  | offsetIn | sizeIn | subaddrIn | tag | regIn | value | din | remIn | addr | cmd | data | pecIn
  deriving DecidableEq, Repr

/-- Where an operand stands in the command word: its lowest bit of `W` and its width (R64). -/
structure OperandSlot where
  name  : OperandName
  lo    : Nat
  width : Nat
  deriving DecidableEq, Repr

/-- The format of each operation (R64, R72). -/
def Mnemonic.format : Mnemonic → Format
  | .encodeDesc => .E
  | .decSubaddr | .decSize | .decOffset | .mask => .T
  | .fieldMerge => .M
  | .fieldExtract => .X
  | .crc8 => .C
  | .accClear => .N
  | .accUpdate => .U
  | .pecWriteByte | .pecWriteWord | .pecReadByte | .pecReadWord => .P
  | .pecReadByteTest | .pecReadWordTest => .PT

/-- The operands of each format (R64's table, with the bits of `W`). -/
def Format.operands : Format → List OperandSlot
  | .E => [⟨.offsetIn, 8, 4⟩, ⟨.sizeIn, 24, 5⟩, ⟨.subaddrIn, 40, 8⟩]
  | .T => [⟨.tag, 8, 16⟩]
  | .M => [⟨.tag, 8, 16⟩, ⟨.regIn, 24, 16⟩, ⟨.value, 40, 16⟩]
  | .X => [⟨.tag, 8, 16⟩, ⟨.regIn, 24, 16⟩]
  | .C => [⟨.din, 8, 8⟩, ⟨.remIn, 24, 8⟩]
  | .U => [⟨.din, 8, 8⟩]
  | .N => []
  | .P => [⟨.addr, 8, 7⟩, ⟨.cmd, 24, 8⟩, ⟨.data, 40, 16⟩]
  | .PT => [⟨.addr, 8, 7⟩, ⟨.cmd, 24, 8⟩, ⟨.data, 40, 16⟩, ⟨.pecIn, 56, 8⟩]

/-- One `name=value` of an assembler line; values are plain numbers (R77). -/
structure AsmArg where
  name  : OperandName
  value : Nat
  deriving DecidableEq, Repr

/-- An assembler line, `MNEMONIC name=value, name=value, ...` (R77): operands in any order, some omitted. -/
structure AsmCommand where
  mnemonic : Mnemonic
  args     : List AsmArg
  deriving DecidableEq, Repr

end Sys2Proof
end

