-- ==== Sys2Proof/WellFormed.lean ====
section
/-! DEFINITION. What an assembler line must satisfy to stand for a command word (30_encoding.md R64, R77). An `Instr`
needs no such check: its operands have exactly the widths of R64 by type, and every command whose code is assigned is
executed whatever its operands are (R65, R166). Descriptor validity is no well-formedness (R68): it is a duty of the
host (70_reset_and_hazards.md R191) and stands in Safety.lean. -/

namespace Sys2Proof

/-- The slot of an operand of a mnemonic's format, if the format has it (R64). -/
def Mnemonic.slotOf (m : Mnemonic) (n : OperandName) : Option OperandSlot :=
  m.format.operands.find? (·.name == n)

/-- The named operand belongs to the mnemonic's format, and the value fits its width (R64). -/
def AsmArg.wf (m : Mnemonic) (a : AsmArg) : Bool :=
  match m.slotOf a.name with
  | some slot => decide (a.value < 2 ^ slot.width)
  | none => false

/-- No operand is given twice (R77 gives each operand one value). -/
def argNamesDistinct : List AsmArg → Bool
  | [] => true
  | a :: rest => !(rest.any (·.name == a.name)) && argNamesDistinct rest

/-- An assembler line is well formed: each operand is one of its format's, is given once, and fits. -/
def AsmCommand.wf (c : AsmCommand) : Bool :=
  c.args.all (AsmArg.wf c.mnemonic) && argNamesDistinct c.args

end Sys2Proof
end

