-- ==== Sys2Proof/Decode.lean ====
section
/-! DEFINITION. Decoding, total on every 64-bit word and rejecting reserved words by name (30_encoding.md R61 to R65,
R72 to R76); the encoder (R62, R64); the assembler (R77). -/

namespace Sys2Proof

/-! ### The fields of the command word (R62, R63) -/

/-- `OP = W[4:0]`. -/
def opField (w : Command) : BitVec 5 := w.extractLsb' 0 5

/-- `RSV = W[7:5]`. -/
def rsvField (w : Command) : BitVec 3 := w.extractLsb' 5 3

/-- `S1 = W[23:8]`. -/
def slot1 (w : Command) : Half := w.extractLsb' 8 16

/-- `S2 = W[39:24]`. -/
def slot2 (w : Command) : Half := w.extractLsb' 24 16

/-- `S3 = W[55:40]`. -/
def slot3 (w : Command) : Half := w.extractLsb' 40 16

/-- `S4 = W[63:56]`. -/
def slot4 (w : Command) : Byte := w.extractLsb' 56 8

/-- The low byte of a slot, `S[7:0]`. -/
def slotByte (s : Half) : Byte := s.extractLsb' 0 8

/-! ### The opcode map (R72) -/

/-- The operation code of a mnemonic (R72). -/
def Mnemonic.code : Mnemonic → BitVec 5
  | .encodeDesc => 0x01#5
  | .decSubaddr => 0x02#5
  | .decSize => 0x03#5
  | .decOffset => 0x04#5
  | .mask => 0x05#5
  | .fieldMerge => 0x06#5
  | .fieldExtract => 0x07#5
  | .crc8 => 0x08#5
  | .accClear => 0x09#5
  | .accUpdate => 0x0A#5
  | .pecWriteByte => 0x10#5
  | .pecWriteWord => 0x11#5
  | .pecReadByte => 0x12#5
  | .pecReadWord => 0x13#5
  | .pecReadByteTest => 0x14#5
  | .pecReadWordTest => 0x15#5

/-- The case split of R73 on `W[4:0]`; every code it does not list is reserved (R74). -/
def mnemonicOfCode (op : BitVec 5) : Option Mnemonic :=
  match op with
  | 0x01#5 => some .encodeDesc
  | 0x02#5 => some .decSubaddr
  | 0x03#5 => some .decSize
  | 0x04#5 => some .decOffset
  | 0x05#5 => some .mask
  | 0x06#5 => some .fieldMerge
  | 0x07#5 => some .fieldExtract
  | 0x08#5 => some .crc8
  | 0x09#5 => some .accClear
  | 0x0A#5 => some .accUpdate
  | 0x10#5 => some .pecWriteByte
  | 0x11#5 => some .pecWriteWord
  | 0x12#5 => some .pecReadByte
  | 0x13#5 => some .pecReadWord
  | 0x14#5 => some .pecReadByteTest
  | 0x15#5 => some .pecReadWordTest
  | _ => none

/-- The operands, read from the slots by the operation's format (R64); all other bits are ignored (R65). -/
def readOperands (m : Mnemonic) (w : Command) : Instr :=
  match m with
  | .encodeDesc => .encodeDesc ((slot1 w).extractLsb' 0 4) ((slot2 w).extractLsb' 0 5) (slotByte (slot3 w))
  | .decSubaddr => .decSubaddr (slot1 w)
  | .decSize => .decSize (slot1 w)
  | .decOffset => .decOffset (slot1 w)
  | .mask => .mask (slot1 w)
  | .fieldMerge => .fieldMerge (slot1 w) (slot2 w) (slot3 w)
  | .fieldExtract => .fieldExtract (slot1 w) (slot2 w)
  | .crc8 => .crc8 (slotByte (slot1 w)) (slotByte (slot2 w))
  | .accClear => .accClear
  | .accUpdate => .accUpdate (slotByte (slot1 w))
  | .pecWriteByte => .pecWriteByte ((slot1 w).extractLsb' 0 7) (slotByte (slot2 w)) (slotByte (slot3 w))
  | .pecWriteWord => .pecWriteWord ((slot1 w).extractLsb' 0 7) (slotByte (slot2 w)) (slot3 w)
  | .pecReadByte => .pecReadByte ((slot1 w).extractLsb' 0 7) (slotByte (slot2 w)) (slotByte (slot3 w))
  | .pecReadWord => .pecReadWord ((slot1 w).extractLsb' 0 7) (slotByte (slot2 w)) (slot3 w)
  | .pecReadByteTest => .pecReadByteTest ((slot1 w).extractLsb' 0 7) (slotByte (slot2 w)) (slotByte (slot3 w)) (slot4 w)
  | .pecReadWordTest => .pecReadWordTest ((slot1 w).extractLsb' 0 7) (slotByte (slot2 w)) (slot3 w) (slot4 w)

/-- Why a word is reserved (R74). -/
inductive ReservedWhy where
  /-- `RSV ≠ 0`, whatever the code. -/
  | rsvBits (rsv : BitVec 3)
  /-- A code that R72 does not assign. -/
  | opCode (op : BitVec 5)
  deriving DecidableEq, Repr

/-- What decoding answers: a command, or RESERVED and why (R73). -/
inductive Decoded where
  | command (i : Instr)
  | reserved (why : ReservedWhy)
  deriving DecidableEq, Repr

/-- R73's `decode`: `W[7:5]` is looked at first, then `W[4:0]`; then the operands are read. -/
def decode (w : Command) : Decoded :=
  if rsvField w ≠ 0#3 then .reserved (.rsvBits (rsvField w))
  else match mnemonicOfCode (opField w) with
    | none => .reserved (.opCode (opField w))
    | some m => .command (readOperands m w)

/-- The instruction of a word that the opcode table numbers: its bits are the command word's own numbering
(R11, R62), and no byte order enters (20_memory.md R46; log entry 19). -/
def decodeTableWord (nbits w : Nat) : Option Instr :=
  match decode (BitVec.ofNat 64 (w % 2 ^ nbits)) with
  | .command i => some i
  | .reserved _ => none

/-! ### Encoding (R62, R64) -/

/-- `W = (S4 << 56) | (S3 << 40) | (S2 << 24) | (S1 << 8) | (RSV << 5) | OP`, with `RSV = 0` (R62). -/
def packCommand (op : BitVec 5) (s1 s2 s3 : Half) (s4 : Byte) : Command :=
  (s4.setWidth 64 <<< 56) ||| (s3.setWidth 64 <<< 40) ||| (s2.setWidth 64 <<< 24) ||| (s1.setWidth 64 <<< 8)
    ||| op.setWidth 64

/-- The four slots of an instruction: its operands by the format, the don't-care bits 0 (R64, R77). -/
def operandSlots : Instr → Half × Half × Half × Byte
  | .encodeDesc o z a => (o.setWidth 16, z.setWidth 16, a.setWidth 16, 0#8)
  | .decSubaddr t => (t, 0#16, 0#16, 0#8)
  | .decSize t => (t, 0#16, 0#16, 0#8)
  | .decOffset t => (t, 0#16, 0#16, 0#8)
  | .mask t => (t, 0#16, 0#16, 0#8)
  | .fieldMerge t r v => (t, r, v, 0#8)
  | .fieldExtract t r => (t, r, 0#16, 0#8)
  | .crc8 d r => (d.setWidth 16, r.setWidth 16, 0#16, 0#8)
  | .accClear => (0#16, 0#16, 0#16, 0#8)
  | .accUpdate d => (d.setWidth 16, 0#16, 0#16, 0#8)
  | .pecWriteByte a c d => (a.setWidth 16, c.setWidth 16, d.setWidth 16, 0#8)
  | .pecWriteWord a c d => (a.setWidth 16, c.setWidth 16, d, 0#8)
  | .pecReadByte a c d => (a.setWidth 16, c.setWidth 16, d.setWidth 16, 0#8)
  | .pecReadWord a c d => (a.setWidth 16, c.setWidth 16, d, 0#8)
  | .pecReadByteTest a c d p => (a.setWidth 16, c.setWidth 16, d.setWidth 16, p)
  | .pecReadWordTest a c d p => (a.setWidth 16, c.setWidth 16, d, p)

/-- The command word of an instruction, its don't-care bits 0 (R62, R64, R77). -/
def encode (i : Instr) : Command :=
  let s := operandSlots i
  packCommand i.mnemonic.code s.1 s.2.1 s.2.2.1 s.2.2.2

/-- The bits of `W` that `OP`, `RSV` and the operands of an operation take; every other bit is don't-care
(R65; the rows' `encoding` patterns in opcode_table.json). -/
def careMask : Mnemonic → Command
  | .encodeDesc => 0x0000FF001F000FFF#64
  | .decSubaddr | .decSize | .decOffset | .mask => 0x0000000000FFFFFF#64
  | .fieldMerge => 0x00FFFFFFFFFFFFFF#64
  | .fieldExtract => 0x000000FFFFFFFFFF#64
  | .crc8 => 0x00000000FF00FFFF#64
  | .accClear => 0x00000000000000FF#64
  | .accUpdate => 0x000000000000FFFF#64
  | .pecWriteByte | .pecReadByte => 0x0000FF00FF007FFF#64
  | .pecWriteWord | .pecReadWord => 0x00FFFF00FF007FFF#64
  | .pecReadByteTest => 0xFF00FF00FF007FFF#64
  | .pecReadWordTest => 0xFFFFFF00FF007FFF#64

/-! ### The assembler (R77) -/

/-- One operand placed at its slot bits; an operand the format lacks places nothing. -/
def placeArg (m : Mnemonic) (a : AsmArg) : Command :=
  match m.slotOf a.name with
  | some slot => BitVec.ofNat 64 (a.value % 2 ^ slot.width) <<< slot.lo
  | none => 0#64

/-- The assembled word: omitted operands and don't-care bits are 0; an ill-formed line has none (R77). -/
def assemble (c : AsmCommand) : Option Command :=
  if c.wf then
    some (c.args.foldl (fun w a => w ||| placeArg c.mnemonic a) (c.mnemonic.code.setWidth 64))
  else none

/-! ### The assembler's text (R77) -/

/-- The mnemonics as R72 writes them. -/
def mnemonicNames : List (List Char × Mnemonic) :=
  [("ENCODE".toList, .encodeDesc), ("DEC_SUBADDR".toList, .decSubaddr), ("DEC_SIZE".toList, .decSize),
   ("DEC_OFFSET".toList, .decOffset), ("MASK".toList, .mask), ("FIELD_MERGE".toList, .fieldMerge),
   ("FIELD_EXTRACT".toList, .fieldExtract), ("CRC8".toList, .crc8), ("ACC_CLEAR".toList, .accClear),
   ("ACC_UPDATE".toList, .accUpdate)]
  ++ [("PEC_WRITE_BYTE".toList, .pecWriteByte), ("PEC_WRITE_WORD".toList, .pecWriteWord),
   ("PEC_READ_BYTE".toList, .pecReadByte), ("PEC_READ_WORD".toList, .pecReadWord),
   ("PEC_READ_BYTE_TEST".toList, .pecReadByteTest), ("PEC_READ_WORD_TEST".toList, .pecReadWordTest)]

/-- The operand names as R64 writes them. -/
def operandNames : List (List Char × OperandName) :=
  [("offset_in".toList, .offsetIn), ("size_in".toList, .sizeIn), ("subaddr_in".toList, .subaddrIn),
   ("tag".toList, .tag), ("reg_in".toList, .regIn), ("value".toList, .value), ("din".toList, .din),
   ("rem_in".toList, .remIn), ("addr".toList, .addr), ("cmd".toList, .cmd), ("data".toList, .data),
   ("pec_in".toList, .pecIn)]

/-- The value of a digit character, whatever the base. -/
def digitValue (c : Char) : Option Nat :=
  let n := c.toNat
  if 48 ≤ n ∧ n ≤ 57 then some (n - 48)
  else if 65 ≤ n ∧ n ≤ 70 then some (n - 55)
  else if 97 ≤ n ∧ n ≤ 102 then some (n - 87)
  else none

/-- Digits of a base read from the most significant on; a digit outside the base is refused. -/
def readDigits (base : Nat) : Nat → List Char → Option Nat
  | acc, [] => some acc
  | acc, c :: cs =>
    match digitValue c with
    | some d => if d < base then readDigits base (acc * base + d) cs else none
    | none => none

/-- A value, written `0x..` (hex), `0b..` (binary) or as decimal (R77); at least one digit. -/
def readValue : List Char → Option Nat
  | '0' :: 'x' :: c :: cs => readDigits 16 0 (c :: cs)
  | '0' :: 'b' :: c :: cs => readDigits 2 0 (c :: cs)
  | c :: cs => readDigits 10 0 (c :: cs)
  | [] => none

/-- The part of a text before the first `sep`, and the part after it where there is one. -/
def splitFirst (sep : Char) : List Char → List Char × Option (List Char)
  | [] => ([], none)
  | c :: cs =>
    if c = sep then ([], some cs)
    else ((c :: (splitFirst sep cs).1), (splitFirst sep cs).2)

/-- The pieces of a text between the separators. -/
def splitAll (sep : Char) : List Char → List (List Char)
  | [] => [[]]
  | c :: cs =>
    if c = sep then [] :: splitAll sep cs
    else match splitAll sep cs with
      | [] => [[c]]
      | p :: ps => (c :: p) :: ps

/-- One `name=value`, spaces around it dropped (R77). -/
def readArg (text : List Char) : Option AsmArg :=
  match splitFirst '=' (text.filter (· ≠ ' ')) with
  | (name, some value) =>
    match operandNames.lookup name, readValue value with
    | some n, some v => some { name := n, value := v }
    | _, _ => none
  | (_, none) => none

/-- Every piece read as a `name=value`; one that is not refuses the line. -/
def readArgs : List (List Char) → Option (List AsmArg)
  | [] => some []
  | t :: ts =>
    match readArg t, readArgs ts with
    | some a, some as => some (a :: as)
    | _, _ => none

/-- An assembler line read from its text: the mnemonic, a space, and the operands parted by commas (R77). -/
def readLine (text : List Char) : Option AsmCommand :=
  match splitFirst ' ' text with
  | (name, rest) =>
    match mnemonicNames.lookup name with
    | none => none
    | some m =>
      match rest with
      | none => some { mnemonic := m, args := [] }
      | some r => (readArgs (splitAll ',' r)).map fun as => { mnemonic := m, args := as }

/-- A text assembled to its word. -/
def assembleLine (text : List Char) : Option Command :=
  (readLine text).bind assemble

/-- The hex digit, capital letters, of a 4-bit value. -/
def hexDigit (d : BitVec 4) : Char :=
  if d.toNat < 10 then Char.ofNat (48 + d.toNat) else Char.ofNat (55 + d.toNat)

/-- The `n` low hex digits of a word, most significant first. -/
def hexDigits (w : Command) : Nat → List Char
  | 0 => []
  | n + 1 => hexDigit (w.extractLsb' (4 * n) 4) :: hexDigits w n

/-- The encoded word written as `0x` and 16 hex digits (R77). -/
def printWord (w : Command) : List Char := '0' :: 'x' :: hexDigits w 16

end Sys2Proof
end

