-- ==== Sys2Proof/Machine/State.lean ====
section
/-! DEFINITION. The machine's state as plain data (10_state.md; 00_scope.md R18): the block's ACC and response port, the
words presented on its command port, the host agents, the transport agent, and whose turn is next; why a step can stop;
and the state after reset (70_reset_and_hazards.md R186, R190). -/

namespace Sys2Proof.Machine

/-! ### Hosts (41_field_access.md R120 to R128) -/

/-- A device handle, fixed at construction (R120; 20_memory.md R42): the bus address, the names of its read and write
primitives, and the opaque configuration value passed to every transport call. -/
structure Handle where
  addr    : BusAddr
  readFn  : Token
  writeFn : Token
  config  : Token
  deriving DecidableEq, Repr

/-- What a host's program does next: issue one command word (R61), or run one of the two procedures (R121, R124). -/
inductive HostCall where
  | command (w : Command)
  | writeField (h : Handle) (tag value : Half)
  | readField (h : Handle) (tag : Half)
  deriving DecidableEq, Repr

/-- How far a host's procedure has got: what it does on its next turn, and what it holds by then. `sub` is the
subaddress its first DEC_SUBADDR answered. -/
inductive Phase where
  /-- Between two calls. -/
  | ready
  /-- WRITE_FIELD, whole-register path: the transport write of `value` comes next (R121). -/
  | writeDirect (h : Handle) (tag value : Half) (sub : Byte)
  /-- WRITE_FIELD, read-modify-write path: the transport read comes next (R122, 1). -/
  | writeFetch (h : Handle) (tag value : Half) (sub : Byte)
  /-- The read gave `old`; the FIELD_MERGE comes next (R122, 3). -/
  | writeMerge (h : Handle) (tag value : Half) (sub : Byte) (old : Half)
  /-- The merge gave `word`; the transport write of it comes next (R122, 4). -/
  | writeBack (h : Handle) (tag value : Half) (sub : Byte) (old word : Half)
  /-- READ_FIELD: the transport read comes next (R124). -/
  | readFetch (h : Handle) (tag : Half) (sub : Byte)
  /-- The read gave `raw`; the FIELD_EXTRACT comes next (R124). -/
  | readExtract (h : Handle) (tag : Half) (sub : Byte) (raw : Half)
  deriving DecidableEq, Repr

/-- What a finished call gives its caller: the response of a command, the status of a WRITE_FIELD, or the value
(none is `NO_VALUE`) and status of a READ_FIELD (R121 to R125). -/
inductive Returned where
  | response (rsp : Rsp)
  | writeField (status : Status)
  | readField (value : Option Half) (status : Status)
  deriving DecidableEq, Repr

/-- One host: the procedure in progress, the calls still to make, and what finished calls returned, oldest first. -/
structure HostAgent where
  phase    : Phase
  calls    : List HostCall
  returned : List Returned
  deriving DecidableEq, Repr

/-! ### The transport (R14, R116 to R119, R129) -/

/-- The drawn outcome of one transport call (R119): a status, the data word a successful read carries, and the PEC byte
a PEC-enabled transport receives with it. -/
structure Reply where
  status : Status
  data   : Half
  pec    : Byte
  deriving DecidableEq, Repr

/-- One transport call as it was issued, with its outcome: the primitive, the bus address, the command code, the
configuration value. A read's data is none when it failed (R119); a read's `pecTest` is the result of the PEC check and
a write's `pecSent` the appended byte, none where the transport does not use the PEC (R129). -/
inductive BusEvent where
  | read (fn : Token) (addr : BusAddr) (cmd : Byte) (config : Token) (status : Status) (data : Option Half)
      (pecTest : Option Half)
  | write (fn : Token) (addr : BusAddr) (cmd : Byte) (config : Token) (data : Half) (status : Status)
      (pecSent : Option Byte)
  deriving DecidableEq, Repr

/-- The transport agent: outcomes already drawn for the coming calls, how many were drawn so far, the calls issued
(oldest first), and the parameter `PEC_ENABLED`. -/
structure Transport where
  replies    : List Reply
  drawn      : Nat
  log        : List BusEvent
  pecEnabled : Bool
  deriving DecidableEq, Repr

/-! ### Turns -/

/-- Which agent moves: reset is applied (R188), the block executes the next word on its port (R61), or host `k` makes
its next move (R53, R54, R173). -/
inductive Turn where
  | reset
  | command
  | host (k : Nat)
  deriving DecidableEq, Repr

/-- The whole machine. `acc` and `rsp` are the block's (R23, R27); `commands` are the words on the command port (R61);
`turns` is the model's own: the order in which the agents move, an input (log entry 12). -/
structure State where
  acc       : Byte
  rsp       : Rsp
  commands  : List Command
  hosts     : List HostAgent
  transport : Transport
  turns     : List Turn
  deriving DecidableEq, Repr

/-- Why a step can stop. The block itself raises none of these (60_exceptions.md R166). -/
inductive Fault where
  /-- Raised by a step under the policy `fault` for reserved words (K11), never under the machine's own policy. Safe:
  the block would report `OP_ERR` and go on (R75). -/
  | reservedCommand (w : Command)
  /-- Raised by a step under the policy `fault` for invalid descriptors (K2), never under the machine's own policy.
  Safe: the block would report `DESC_ERR` and go on (R30). -/
  | invalidDescriptor (w : Command)
  /-- Raised by a host that uses the data of a failed transport read (K1, R119), which no procedure does (R196). Safe:
  the data has no value. -/
  | failedReadData
  deriving DecidableEq, Repr

/-- Why an instruction has no meaning. -/
inductive Refusal where
  /-- Raised by `exec` for an instruction not modelled yet, which none is. Safe. -/
  | notModelled (mnemonic : String)
  deriving DecidableEq, Repr

/-- What a step answers. -/
abbrev Result := Host.Outcome State Fault Refusal

/-- A transport with no outcome listed and no call issued (log entries 10 and 18). -/
def Transport.initial : Transport := { replies := [], drawn := 0, log := [], pecEnabled := false }

/-- The machine right after reset: ACC is `ACC_RESET` and the response port reads 0 (R186, R190); no word is presented
and no host has begun (R187; log entry 18). -/
def State.reset : State :=
  { acc := Config.accReset, rsp := 0#32, commands := [], hosts := [], transport := Transport.initial, turns := [] }

end Sys2Proof.Machine
end

