-- ==== Sys2Proof/Machine/Operands.lean ====
section
/-! DEFINITION. The pure computations on operands: the tag's fields and its packing (30_encoding.md R66, R67), the mask
(40_descriptor.md R96), the merge and the extract of a field (41_field_access.md R111, R113), and the bytes of a PEC frame
(30_encoding.md R70, R71). -/

namespace Sys2Proof.Machine

/-! ### The descriptor tag -/

/-- `OFF(t) = t[15:12]` (R67). -/
def off (t : Half) : BitVec 4 := t.extractLsb' 12 4

/-- `SZ(t) = zext_5(t[11:8]) + 1` (R67). -/
def sz (t : Half) : BitVec 5 := (t.extractLsb' 8 4).setWidth 5 + 1#5

/-- `SUB(t) = t[7:0]` (R67). -/
def sub (t : Half) : Byte := t.extractLsb' 0 8

/-- `{offset_in[3:0], trunc_4(size_in - 1), subaddr_in[7:0]}`, the packing of ENCODE (R91). -/
def makeTag (offsetIn : BitVec 4) (sizeIn : BitVec 5) (subaddrIn : Byte) : Half :=
  (offsetIn.setWidth 16 <<< 12) ||| (((sizeIn - 1#5).setWidth 4).setWidth 16 <<< 8) ||| subaddrIn.setWidth 16

/-! ### The mask -/

/-- `n` rounds of R96's loop, `m <- m | trunc_16(m << 1)`. -/
def maskRounds : Nat → Half → Half
  | 0, m => m
  | n + 1, m => maskRounds n (m ||| (m <<< 1))

/-- `mask_of(t)` (R96): one bit at `OFF(t)`, then `SZ(t) - 1` rounds, every value 16 bits wide. -/
def maskOf (t : Half) : Half := maskRounds ((sz t).toNat - 1) (1#16 <<< (off t).toNat)

/-! ### Merge and extract -/

/-- FIELD_MERGE's result (R111). -/
def mergeField (tag regIn value : Half) : Half :=
  if sz tag = 16#5 then value
  else (regIn &&& ~~~(maskOf tag)) ||| ((value <<< (off tag).toNat) &&& maskOf tag)

/-- FIELD_EXTRACT's result (R113). -/
def extractField (tag regIn : Half) : Half :=
  if sz tag = 16#5 then regIn
  else (regIn &&& maskOf tag) >>> (off tag).toNat

/-! ### The bytes of a PEC frame -/

/-- `ADDR_W(a) = (a << 1) | 0` (R70). -/
def addrW (a : BusAddr) : Byte := a.setWidth 8 <<< 1

/-- `ADDR_R(a) = (a << 1) | 1` (R70). -/
def addrR (a : BusAddr) : Byte := (a.setWidth 8 <<< 1) ||| 1#8

/-- `low_byte(d) = d[7:0]` (R47). -/
def lowByte (d : Half) : Byte := d.extractLsb' 0 8

/-- `high_byte(d) = d[15:8]` (R47). -/
def highByte (d : Half) : Byte := d.extractLsb' 8 8

/-- The frame of PEC_WRITE_BYTE (R71). -/
def frameWriteByte (addr : BusAddr) (cmd data : Byte) : List Byte := [addrW addr, cmd, data]

/-- The frame of PEC_WRITE_WORD (R71). -/
def frameWriteWord (addr : BusAddr) (cmd : Byte) (data : Half) : List Byte :=
  [addrW addr, cmd, lowByte data, highByte data]

/-- The frame of PEC_READ_BYTE and of its test (R71). -/
def frameReadByte (addr : BusAddr) (cmd data : Byte) : List Byte := [addrW addr, cmd, addrR addr, data]

/-- The frame of PEC_READ_WORD and of its test (R71). -/
def frameReadWord (addr : BusAddr) (cmd : Byte) (data : Half) : List Byte :=
  [addrW addr, cmd, addrR addr, lowByte data, highByte data]

end Sys2Proof.Machine
end

