-- ==== Sys2Proof/Machine/Crc.lean ====
section
/-! DEFINITION. The one-byte CRC-8 update and its fold over a frame (42_crc_pec.md R136, R138), the PECs of the four frames
(R145 to R149) and the check of a received one (R150, R151): all pure. -/

namespace Sys2Proof.Machine

/-- One round of R136's loop: shift left, and XOR with 0x07 where the bit shifted out was 1. -/
def crcRound (w : Byte) : Byte := if w.getLsbD 7 then (w <<< 1) ^^^ 0x07#8 else w <<< 1

/-- `n` rounds. -/
def crcRounds : Nat → Byte → Byte
  | 0, w => w
  | n + 1, w => crcRounds n (crcRound w)

/-- `crc8(byte, prev)` (R136). -/
def crc8 (byte prev : Byte) : Byte := crcRounds 8 (prev ^^^ byte)

/-- `fold(r0, bytes)` (R138). -/
def foldCrc : Byte → List Byte → Byte
  | r, [] => r
  | r, b :: bs => foldCrc (crc8 b r) bs

/-- The PEC of a frame: `fold(0x00, frame)` (R138, R145). -/
def pecOf (frame : List Byte) : Byte := foldCrc 0x00#8 frame

/-- A PEC test's result: 0 on a match, `MISMATCH_VALUE` otherwise (R150, R151). -/
def pecTestResult (frame : List Byte) (pecIn : Byte) : Half :=
  if pecOf frame = pecIn then 0x0000#16 else Config.mismatchValue

end Sys2Proof.Machine
end

