-- ==== Sys2Proof/Machine/Flags.lean ====
section
/-! DEFINITION. The flags of the response word and how each operation computes them (10_state.md R29 to R31). They are
recomputed at every step and never kept (R28). -/

namespace Sys2Proof.Machine

/-- `WHOLE`, `DESC_ERR` and `OP_ERR` of one response. -/
structure Flags where
  whole   : Bool
  descErr : Bool
  opErr   : Bool
  deriving DecidableEq, Repr

/-- All flags 0: every operation that reads no tag and is not ENCODE (R29, R30). -/
def noFlags : Flags := { whole := false, descErr := false, opErr := false }

/-- The flags of an operation that reads the tag `t`: `WHOLE = (SZ(t) == 16)`, `DESC_ERR = (OFF(t) + SZ(t) > 16)`, the
sum over unbounded integers (R12, R29, R30). -/
def tagFlags (t : Half) : Flags :=
  { whole := decide ((sz t).toNat = 16), descErr := decide ((off t).toNat + (sz t).toNat > 16), opErr := false }

/-- The flags of ENCODE: `WHOLE = (size_in == 16)`,
`DESC_ERR = NOT(1 ≤ size_in ≤ 16 AND offset_in + size_in ≤ 16)` (R29, R30, R91). -/
def encodeFlags (offsetIn : BitVec 4) (sizeIn : BitVec 5) : Flags :=
  { whole := decide (sizeIn.toNat = 16)
    descErr := !decide (1 ≤ sizeIn.toNat ∧ sizeIn.toNat ≤ 16 ∧ offsetIn.toNat + sizeIn.toNat ≤ 16)
    opErr := false }

/-- The flags of a reserved command: only `OP_ERR` (R31, R75, R169). -/
def reservedFlags : Flags := { whole := false, descErr := false, opErr := true }

end Sys2Proof.Machine
end

