-- ==== Sys2Proof/Machine/Ops.lean ====
section
/-! DEFINITION. The named operations over the block's state: the response word and its fields (10_state.md R27), answering
a result, writing ACC (R23), the report of a reserved command (30_encoding.md R75), and reset (70_reset_and_hazards.md
R186). The block takes no exception and returns from none (60_exceptions.md R166, R170): the report of a reserved command
is the one thing an erring command does, and no return from it exists. -/

namespace Sys2Proof.Machine

/-- `RSP = {5'b0, OP_ERR, DESC_ERR, WHOLE, ACC_OUT, RESULT}` (R27). -/
def packRsp (f : Flags) (accOut : Byte) (result : Half) : Rsp :=
  ((BitVec.ofBool f.opErr).setWidth 32 <<< 26) ||| ((BitVec.ofBool f.descErr).setWidth 32 <<< 25)
    ||| ((BitVec.ofBool f.whole).setWidth 32 <<< 24) ||| (accOut.setWidth 32 <<< 16) ||| result.setWidth 32

/-- `RESULT`, bits 15:0 of a response (R27). -/
def rspResult (r : Rsp) : Half := r.extractLsb' 0 16

/-- `ACC_OUT`, bits 23:16 of a response (R27). -/
def rspAccOut (r : Rsp) : Byte := r.extractLsb' 16 8

/-- `WHOLE`, bit 24 of a response (R27). -/
def rspWhole (r : Rsp) : Bool := r.getLsbD 24

/-- `DESC_ERR`, bit 25 of a response (R27). -/
def rspDescErr (r : Rsp) : Bool := r.getLsbD 25

/-- `OP_ERR`, bit 26 of a response (R27). -/
def rspOpErr (r : Rsp) : Bool := r.getLsbD 26

/-- Bits 31:27 of a response (R27). -/
def rspReserved (r : Rsp) : BitVec 5 := r.extractLsb' 27 5

/-- The state with ACC written (R23). -/
def State.writeAcc (s : State) (v : Byte) : State := { s with acc := v }

/-- The state with the response of this step on the port; `ACC_OUT` is ACC after the step (R27, R28). -/
def State.respond (s : State) (f : Flags) (result : Half) : State := { s with rsp := packRsp f s.acc result }

/-- A reserved command: only `OP_ERR`, `RESULT` 0, ACC unchanged (R75). -/
def State.reportReserved (s : State) : State := s.respond reservedFlags 0x0000#16

/-- Reset: ACC takes `ACC_RESET` and the response port reads 0; nothing outside the block is touched (R186 to R190). -/
def State.resetBlock (s : State) : State := { s with acc := Config.accReset, rsp := 0#32 }

/-- Go on from a next state; a stop stays a stop. -/
def andThen (r : Result) (f : State → Result) : Result :=
  match r with
  | .next s => f s
  | .fault e => .fault e
  | .refused e => .refused e

end Sys2Proof.Machine
end

