-- ==== Sys2Proof/Machine/CrcPec.lean ====
section
/-! DEFINITION. The meanings of CRC8, ACC_CLEAR, ACC_UPDATE and the six PEC frame operations (42_crc_pec.md R141 to R151).
Every flag is 0; only ACC_CLEAR and ACC_UPDATE write ACC (10_state.md R23). -/

namespace Sys2Proof.Machine

/-- CRC8 (R141). -/
def execCrc8 (din remIn : Byte) (s : State) : Result :=
  .next (s.respond noFlags ((crc8 din remIn).setWidth 16))

/-- ACC_CLEAR (R143). -/
def execAccClear (s : State) : Result :=
  .next ((s.writeAcc 0x00#8).respond noFlags 0x0000#16)

/-- ACC_UPDATE (R144). -/
def execAccUpdate (din : Byte) (s : State) : Result :=
  .next ((s.writeAcc (crc8 din s.acc)).respond noFlags ((crc8 din s.acc).setWidth 16))

/-- PEC_WRITE_BYTE (R146). -/
def execPecWriteByte (addr : BusAddr) (cmd data : Byte) (s : State) : Result :=
  .next (s.respond noFlags ((pecOf (frameWriteByte addr cmd data)).setWidth 16))

/-- PEC_WRITE_WORD (R147). -/
def execPecWriteWord (addr : BusAddr) (cmd : Byte) (data : Half) (s : State) : Result :=
  .next (s.respond noFlags ((pecOf (frameWriteWord addr cmd data)).setWidth 16))

/-- PEC_READ_BYTE (R148). -/
def execPecReadByte (addr : BusAddr) (cmd data : Byte) (s : State) : Result :=
  .next (s.respond noFlags ((pecOf (frameReadByte addr cmd data)).setWidth 16))

/-- PEC_READ_WORD (R149). -/
def execPecReadWord (addr : BusAddr) (cmd : Byte) (data : Half) (s : State) : Result :=
  .next (s.respond noFlags ((pecOf (frameReadWord addr cmd data)).setWidth 16))

/-- PEC_READ_BYTE_TEST (R150). -/
def execPecReadByteTest (addr : BusAddr) (cmd data pecIn : Byte) (s : State) : Result :=
  .next (s.respond noFlags (pecTestResult (frameReadByte addr cmd data) pecIn))

/-- PEC_READ_WORD_TEST (R151). -/
def execPecReadWordTest (addr : BusAddr) (cmd : Byte) (data : Half) (pecIn : Byte) (s : State) : Result :=
  .next (s.respond noFlags (pecTestResult (frameReadWord addr cmd data) pecIn))

end Sys2Proof.Machine
end

