-- ==== Sys2Proof/Machine/Descriptor.lean ====
section
/-! DEFINITION. The meanings of the descriptor family: ENCODE, DEC_SUBADDR, DEC_SIZE, DEC_OFFSET, MASK
(40_descriptor.md R91 to R95). None reads or writes ACC (10_state.md R25). -/

namespace Sys2Proof.Machine

/-- ENCODE (R91). -/
def execEncodeDesc (offsetIn : BitVec 4) (sizeIn : BitVec 5) (subaddrIn : Byte) (s : State) : Result :=
  .next (s.respond (encodeFlags offsetIn sizeIn) (makeTag offsetIn sizeIn subaddrIn))

/-- DEC_SUBADDR (R92). -/
def execDecSubaddr (tag : Half) (s : State) : Result :=
  .next (s.respond (tagFlags tag) ((sub tag).setWidth 16))

/-- DEC_SIZE (R93): `zext_16(tag[11:8]) + 1`. -/
def execDecSize (tag : Half) (s : State) : Result :=
  .next (s.respond (tagFlags tag) ((tag.extractLsb' 8 4).setWidth 16 + 1#16))

/-- DEC_OFFSET (R94). -/
def execDecOffset (tag : Half) (s : State) : Result :=
  .next (s.respond (tagFlags tag) ((off tag).setWidth 16))

/-- MASK (R95). -/
def execMask (tag : Half) (s : State) : Result :=
  .next (s.respond (tagFlags tag) (maskOf tag))

end Sys2Proof.Machine
end

