-- ==== Sys2Proof/Machine/FieldAccess.lean ====
section
/-! DEFINITION. The meanings of FIELD_MERGE and FIELD_EXTRACT (41_field_access.md R111, R113). Neither reads or writes ACC. -/

namespace Sys2Proof.Machine

/-- FIELD_MERGE (R111). -/
def execFieldMerge (tag regIn value : Half) (s : State) : Result :=
  .next (s.respond (tagFlags tag) (mergeField tag regIn value))

/-- FIELD_EXTRACT (R113). -/
def execFieldExtract (tag regIn : Half) (s : State) : Result :=
  .next (s.respond (tagFlags tag) (extractField tag regIn))

end Sys2Proof.Machine
end

