-- ==== Sys2Proof/Machine/Dispatch.lean ====
section
/-! DEFINITION. One arm per command, each one call of its meaning (30_encoding.md R72). -/

namespace Sys2Proof.Machine

/-- Executes one decoded command. -/
def exec (i : Instr) (s : State) : Host.Outcome State Fault Refusal :=
  match i with
  | .encodeDesc o z a => Sys2Proof.Machine.execEncodeDesc o z a s
  | .decSubaddr t => Sys2Proof.Machine.execDecSubaddr t s
  | .decSize t => Sys2Proof.Machine.execDecSize t s
  | .decOffset t => Sys2Proof.Machine.execDecOffset t s
  | .mask t => Sys2Proof.Machine.execMask t s
  | .fieldMerge t r v => Sys2Proof.Machine.execFieldMerge t r v s
  | .fieldExtract t r => Sys2Proof.Machine.execFieldExtract t r s
  | .crc8 d r => Sys2Proof.Machine.execCrc8 d r s
  | .accClear => Sys2Proof.Machine.execAccClear s
  | .accUpdate d => Sys2Proof.Machine.execAccUpdate d s
  | .pecWriteByte a c d => Sys2Proof.Machine.execPecWriteByte a c d s
  | .pecWriteWord a c d => Sys2Proof.Machine.execPecWriteWord a c d s
  | .pecReadByte a c d => Sys2Proof.Machine.execPecReadByte a c d s
  | .pecReadWord a c d => Sys2Proof.Machine.execPecReadWord a c d s
  | .pecReadByteTest a c d p => Sys2Proof.Machine.execPecReadByteTest a c d p s
  | .pecReadWordTest a c d p => Sys2Proof.Machine.execPecReadWordTest a c d p s

end Sys2Proof.Machine
end

