-- ==== Sys2Proof/Machine/Block.lean ====
section
/-! DEFINITION. The block executes one command word: decode, then the command's meaning or the report of a reserved word
(30_encoding.md R61, R73, R75; 60_exceptions.md R166), under the two policies a model takes as an argument
(93_implementation_defined.md K2, K11). -/

namespace Sys2Proof.Machine

/-- Under the policy `fault`, a step that sets `DESC_ERR` is a fault (K2); under `compute` it is as it is (R30). -/
def checkDescriptor (p : DescriptorPolicy) (w : Command) (t : State) : Result :=
  match p with
  | .compute => .next t
  | .fault => if rspDescErr t.rsp then .fault (.invalidDescriptor w) else .next t

/-- A reserved word: R75's report, or the fault of K11. -/
def runReserved (p : ReservedPolicy) (w : Command) (s : State) : Result :=
  match p with
  | .report => .next s.reportReserved
  | .fault => .fault (.reservedCommand w)

/-- One command word executed by the block. -/
def runCommand (p : Policy) (w : Command) (s : State) : Result :=
  match decode w with
  | .command i => andThen (exec i s) (checkDescriptor p.descriptor w)
  | .reserved _ => runReserved p.reserved w s

end Sys2Proof.Machine
end

