-- ==== Sys2Proof/Machine/Transport.lean ====
section
/-! DEFINITION. The transport's two primitives (00_scope.md R14; 41_field_access.md R116 to R119): each call is one
indivisible event whose outcome is drawn (20_memory.md R52). Where a reply is listed it is the draw; where none is, the draw
is a free value (93_implementation_defined.md K7; log entry 7). A call touches nothing but the transport. -/

namespace Sys2Proof.Machine

/-- The draw when no reply is listed: free values (K7). -/
def freeReply (n : Nat) : Reply :=
  { status := Config.freeStatus n, data := Config.freeData n, pec := Config.freePec n }

/-- The outcome of the coming call. -/
def Transport.reply (t : Transport) : Reply :=
  match t.replies with
  | [] => freeReply t.drawn
  | r :: _ => r

/-- The transport after a call that is logged as `e`. -/
def Transport.record (t : Transport) (e : BusEvent) : Transport :=
  { t with replies := t.replies.tail, drawn := t.drawn + 1, log := t.log ++ [e] }

/-- The data word of a read's outcome: none unless the status is 0 (R119). -/
def Reply.readData (r : Reply) : Option Half := if r.status = 0 then some r.data else none

/-- What a PEC-enabled transport finds when it checks a word read: the result of PEC_READ_WORD_TEST on the data and the
received byte (R129). -/
def readPecTest (enabled : Bool) (addr : BusAddr) (cmd : Byte) (r : Reply) : Option Half :=
  if enabled then r.readData.map fun d => pecTestResult (frameReadWord addr cmd d) r.pec else none

/-- The byte a PEC-enabled transport appends to a word write: PEC_WRITE_WORD's (R129). -/
def writePecSent (enabled : Bool) (addr : BusAddr) (cmd : Byte) (data : Half) : Option Byte :=
  if enabled then some (pecOf (frameWriteWord addr cmd data)) else none

/-- The event of a read of command code `cmd` through the handle `h`. -/
def readEvent (t : Transport) (h : Handle) (cmd : Byte) : BusEvent :=
  .read h.readFn h.addr cmd h.config t.reply.status t.reply.readData (readPecTest t.pecEnabled h.addr cmd t.reply)

/-- The event of a write of `data` to command code `cmd` through the handle `h`. -/
def writeEvent (t : Transport) (h : Handle) (cmd : Byte) (data : Half) : BusEvent :=
  .write h.writeFn h.addr cmd h.config data t.reply.status (writePecSent t.pecEnabled h.addr cmd data)

/-- `TransportRead(h.addr, cmd, h.config)`: the state after the call; its status and data are the reply's (R14). -/
def State.transportRead (s : State) (h : Handle) (cmd : Byte) : State :=
  { s with transport := s.transport.record (readEvent s.transport h cmd) }

/-- `TransportWrite(h.addr, cmd, data, h.config)`: the state after the call; its status is the reply's (R14). -/
def State.transportWrite (s : State) (h : Handle) (cmd : Byte) (data : Half) : State :=
  { s with transport := s.transport.record (writeEvent s.transport h cmd data) }

/-- A host that uses the data of a read: a fault where there is none (K1). -/
def useReadData (d : Option Half) (f : Half → Result) : Result :=
  match d with
  | some v => f v
  | none => .fault .failedReadData

end Sys2Proof.Machine
end

