-- ==== Sys2Proof/Machine/HostProtocol.lean ====
section
/-! DEFINITION. A host's moves (41_field_access.md R121 to R128). One move is one command of the block or one transport
call, and it completes before anything else happens (20_memory.md R53; log entry 16). A command is issued as its word on
the command port, and its response reaches the host in the same move. -/

namespace Sys2Proof.Machine

/-- The state with host `k` replaced. -/
def State.setHost (s : State) (k : Nat) (a : HostAgent) : State := { s with hosts := s.hosts.set k a }

/-- The host whose call has ended with `r`: it is ready for its next call. -/
def HostAgent.finish (a : HostAgent) (r : Returned) : HostAgent :=
  { a with phase := .ready, returned := a.returned ++ [r] }

/-- The host gone on to the phase `ph`. -/
def HostAgent.goTo (a : HostAgent) (ph : Phase) : HostAgent := { a with phase := ph }

/-- The host with its next call begun: `cs` are the calls that remain. -/
def HostAgent.begin (a : HostAgent) (cs : List HostCall) (ph : Phase) : HostAgent :=
  { a with phase := ph, calls := cs }

/-- The block executes the word of `i`, presented by a host (R61). -/
def issue (p : Policy) (i : Instr) (s : State) : Result := runCommand p (encode i) s

/-- A ready host begins its next call: a command runs at once; a procedure begins with DEC_SUBADDR, whose `WHOLE` chooses
WRITE_FIELD's path (R121, R124). With no call left it does nothing. -/
def beginCall (p : Policy) (k : Nat) (a : HostAgent) (s : State) : Result :=
  match a.calls with
  | [] => .next s
  | .command w :: cs =>
    andThen (runCommand p w s) fun t => .next (t.setHost k ((a.begin cs .ready).finish (.response t.rsp)))
  | .writeField h tag value :: cs =>
    andThen (issue p (.decSubaddr tag) s) fun t =>
      if rspWhole t.rsp then .next (t.setHost k (a.begin cs (.writeDirect h tag value (lowByte (rspResult t.rsp)))))
      else .next (t.setHost k (a.begin cs (.writeFetch h tag value (lowByte (rspResult t.rsp)))))
  | .readField h tag :: cs =>
    andThen (issue p (.decSubaddr tag) s) fun t =>
      .next (t.setHost k (a.begin cs (.readFetch h tag (lowByte (rspResult t.rsp)))))

/-- WRITE_FIELD's transport write of `word`: its status is the procedure's result (R121, R122, R125). -/
def writeAndReturn (k : Nat) (a : HostAgent) (h : Handle) (cmd : Byte) (word : Half) (s : State) : Result :=
  .next ((s.transportWrite h cmd word).setHost k (a.finish (.writeField s.transport.reply.status)))

/-- A procedure's transport read: a failed one ends the procedure with `failed`, and nothing follows it (R122, R123,
R124); a successful one goes on with the data. -/
def readAndContinue (k : Nat) (a : HostAgent) (h : Handle) (cmd : Byte) (failed : Status → Returned) (next : Half → Phase)
    (s : State) : Result :=
  if s.transport.reply.status ≠ 0 then
    .next ((s.transportRead h cmd).setHost k (a.finish (failed s.transport.reply.status)))
  else
    useReadData s.transport.reply.readData fun d => .next ((s.transportRead h cmd).setHost k (a.goTo (next d)))

/-- One move of host `k`, which stands as `a` (R121 to R124). -/
def moveHost (p : Policy) (k : Nat) (a : HostAgent) (s : State) : Result :=
  match a.phase with
  | .ready => beginCall p k a s
  | .writeDirect h _ value cmd => writeAndReturn k a h cmd value s
  | .writeFetch h tag value cmd =>
    readAndContinue k a h cmd .writeField (fun old => .writeMerge h tag value cmd old) s
  | .writeMerge h tag value cmd old =>
    andThen (issue p (.fieldMerge tag old value) s) fun t =>
      .next (t.setHost k (a.goTo (.writeBack h tag value cmd old (rspResult t.rsp))))
  | .writeBack h _ _ cmd _ word => writeAndReturn k a h cmd word s
  | .readFetch h tag cmd =>
    readAndContinue k a h cmd (.readField none) (fun raw => .readExtract h tag cmd raw) s
  | .readExtract _ tag _ raw =>
    andThen (issue p (.fieldExtract tag raw) s) fun t =>
      .next (t.setHost k (a.finish (.readField (some (rspResult t.rsp)) 0)))

/-- Host `k`'s turn; where there is no such host nothing happens. -/
def hostTurn (p : Policy) (k : Nat) (s : State) : Result :=
  match s.hosts[k]? with
  | some a => moveHost p k a s
  | none => .next s

end Sys2Proof.Machine
end

