-- ==== Sys2Proof/Machine/Turns.lean ====
section
/-! DEFINITION. What one turn does, and whose turn it is (20_memory.md R53, R54; 60_exceptions.md R173;
70_reset_and_hazards.md R187, R188; log entries 12 and 13). -/

namespace Sys2Proof.Machine

/-- The next word on the command port is executed (R61); with none presented the block waits (R187). -/
def commandTurn (p : Policy) (s : State) : Result :=
  match s.commands with
  | [] => .next s
  | w :: ws => runCommand p w { s with commands := ws }

/-- One turn. -/
def runTurn (p : Policy) (t : Turn) (s : State) : Result :=
  match t with
  | .reset => .next s.resetBlock
  | .command => commandTurn p s
  | .host k => hostTurn p k s

/-- A host has something to do: a procedure in progress, or a call left. -/
def HostAgent.busy (a : HostAgent) : Bool :=
  match a.phase, a.calls with
  | .ready, [] => false
  | _, _ => true

/-- The first host from number `k` on that has something to do. -/
def firstBusy : Nat → List HostAgent → Option Nat
  | _, [] => none
  | k, a :: as => if a.busy then some k else firstBusy (k + 1) as

/-- Whose turn it is when no turn is listed: a presented word first, then the first busy host; with neither, the block's,
which then waits (DESIGN CHOICE, log entry 12). -/
def defaultTurn (s : State) : Turn :=
  match s.commands with
  | _ :: _ => .command
  | [] =>
    match firstBusy 0 s.hosts with
    | some k => .host k
    | none => .command

/-- One step of the whole machine under a policy. -/
def runNext (p : Policy) (s : State) : Result :=
  match s.turns with
  | t :: ts => runTurn p t { s with turns := ts }
  | [] => runTurn p (defaultTurn s) s

end Sys2Proof.Machine
end

