-- ==== Sys2Proof/Machine/Step.lean ====
section
/-! DEFINITION. The step: one command, one transport call, or one reset (00_scope.md R17 to R19; 20_memory.md R53). -/

namespace Sys2Proof.Machine

/-- One step under a policy that a model takes as an argument (93_implementation_defined.md K2, K11). -/
def stepUnder (p : Policy) (s : State) : Host.Outcome State Fault Refusal := runNext p s

/-- The machine's step: what the rules say the block does (log entries 2 and 3). -/
def step (s : State) : Host.Outcome State Fault Refusal := stepUnder Config.policy s

/-- The state with the word `w` presented on the command port and the next turn the block's, so that the very next step
executes it (30_encoding.md R61; log entry 1). -/
def State.withFetchWord (s : State) (nbits w : Nat) : State :=
  { s with commands := BitVec.ofNat 64 (w % 2 ^ nbits) :: s.commands, turns := .command :: s.turns }

end Sys2Proof.Machine
end

