-- ==== Sys2Proof/Safety.lean ====
section
/-! DEFINITION. The terms the claims use: what an operation answers, what a valid descriptor and a safe word are, the
invariants of the machine, the algebra the CRC is claimed to be, and the open parameter RegisterMap. -/

namespace Sys2Proof.Safety

open Sys2Proof.Machine

/-! ### What an executed command answers -/

/-- From `s` to `t` the block answered `result` with these flags and `OP_ERR = 0`, ACC became `acc`, and nothing else of
the machine changed: the frame of every command that is not reserved (10_state.md R23, R25, R27, R28). -/
structure Answers (s t : State) (acc : Byte) (result : Half) (whole descErr : Bool) : Prop where
  result    : rspResult t.rsp = result
  accOut    : rspAccOut t.rsp = acc
  whole     : rspWhole t.rsp = whole
  descErr   : rspDescErr t.rsp = descErr
  opErr     : rspOpErr t.rsp = false
  reserved  : rspReserved t.rsp = 0#5
  acc       : t.acc = acc
  commands  : t.commands = s.commands
  hosts     : t.hosts = s.hosts
  transport : t.transport = s.transport
  turns     : t.turns = s.turns

/-- `RESULT` of a command executed in `s`, where it completes. -/
def resultOf (i : Instr) (s : State) : Option Half :=
  match exec i s with
  | .next t => some (rspResult t.rsp)
  | _ => none

/-! ### Descriptors, by plain numbers (R17, R66, R67) -/

/-- The offset a tag holds. -/
def tagOffset (t : Half) : Nat := t.toNat / 4096

/-- The size a tag holds. -/
def tagSize (t : Half) : Nat := t.toNat / 256 % 16 + 1

/-- The subaddress a tag holds. -/
def tagSub (t : Half) : Nat := t.toNat % 256

/-- A valid descriptor: `OFF(t) + SZ(t) ≤ 16` (R17). -/
def ValidTag (t : Half) : Prop := tagOffset t + tagSize t ≤ 16

/-- ENCODE's precondition (R91). -/
def ValidFields (offset size : Nat) : Prop := 1 ≤ size ∧ size ≤ 16 ∧ offset + size ≤ 16

/-- A command whose descriptor, where it has one, is valid: the host's duty (70_reset_and_hazards.md R191, 2). -/
def ValidDescriptor : Instr → Prop
  | .encodeDesc o z _ => ValidFields o.toNat z.toNat
  | .decSubaddr t | .decSize t | .decOffset t | .mask t => ValidTag t
  | .fieldMerge t _ _ => ValidTag t
  | .fieldExtract t _ => ValidTag t
  | .crc8 _ _ | .accClear | .accUpdate _ => True
  | .pecWriteByte _ _ _ | .pecWriteWord _ _ _ | .pecReadByte _ _ _ | .pecReadWord _ _ _ => True
  | .pecReadByteTest _ _ _ _ | .pecReadWordTest _ _ _ _ => True

/-- How many bits of a word are 1 (R12). -/
def popcount (m : Half) : Nat := (List.range 16).countP (fun i => m.getLsbD i)

/-! ### Encodings, by plain numbers -/

/-- R72's table: the value of `W[7:0]` (`RSV = 0`) and the command it stands for. -/
def opcodeMap : List (Nat × Mnemonic) :=
  [(0x01, .encodeDesc), (0x02, .decSubaddr), (0x03, .decSize), (0x04, .decOffset), (0x05, .mask), (0x06, .fieldMerge),
   (0x07, .fieldExtract), (0x08, .crc8), (0x09, .accClear), (0x0A, .accUpdate), (0x10, .pecWriteByte),
   (0x11, .pecWriteWord), (0x12, .pecReadByte), (0x13, .pecReadWord), (0x14, .pecReadByteTest), (0x15, .pecReadWordTest)]

/-- R74: `RSV ≠ 0`, or a code 0x00, 0x0B to 0x0F, 0x16 to 0x1F. -/
def ReservedWord (w : Command) : Prop :=
  w.toNat / 32 % 8 ≠ 0 ∨ w.toNat % 32 = 0 ∨ (0x0B ≤ w.toNat % 32 ∧ w.toNat % 32 ≤ 0x0F) ∨ 0x16 ≤ w.toNat % 32

/-- A word a host may present (K2, K11; R191): a command with a valid descriptor. -/
def SafeWord (w : Command) : Prop := ∃ i, decode w = .command i ∧ ValidDescriptor i

/-- A command word with an invalid descriptor: the step that executes it sets `DESC_ERR` (R30, K2). -/
def InvalidWord (w : Command) : Prop := ∃ i, decode w = .command i ∧ ¬ValidDescriptor i

/-- The word a host's next move issues, where it issues one: its own command, or the DEC_SUBADDR, FIELD_MERGE or
FIELD_EXTRACT of a procedure (R121, R122, R124). -/
def issuedWord (a : HostAgent) : Option Command :=
  match a.phase, a.calls with
  | .ready, .command w :: _ => some w
  | .ready, .writeField _ tag _ :: _ => some (encode (.decSubaddr tag))
  | .ready, .readField _ tag :: _ => some (encode (.decSubaddr tag))
  | .writeMerge _ tag value _ old, _ => some (encode (.fieldMerge tag old value))
  | .readExtract _ tag _ raw, _ => some (encode (.fieldExtract tag raw))
  | _, _ => none

/-- The word the block executes on a turn, where it executes one. -/
def wordOfTurn (s : State) : Turn → Option Command
  | .reset => none
  | .command => s.commands.head?
  | .host k => s.hosts[k]?.bind issuedWord

/-- The word the block executes in the coming step, where it executes one, whoever moves (log entries 1, 12 and 16). -/
def executedWord (s : State) : Option Command := wordOfTurn s (s.turns.head?.getD (defaultTurn s))

/-! ### The assembler (30_encoding.md R77) -/

/-- The line that names every operand of an instruction, in the order of R64. -/
def asmLine (i : Instr) : AsmCommand :=
  { mnemonic := i.mnemonic
    args := match i with
      | .encodeDesc o z a => [⟨.offsetIn, o.toNat⟩, ⟨.sizeIn, z.toNat⟩, ⟨.subaddrIn, a.toNat⟩]
      | .decSubaddr t | .decSize t | .decOffset t | .mask t => [⟨.tag, t.toNat⟩]
      | .fieldMerge t r v => [⟨.tag, t.toNat⟩, ⟨.regIn, r.toNat⟩, ⟨.value, v.toNat⟩]
      | .fieldExtract t r => [⟨.tag, t.toNat⟩, ⟨.regIn, r.toNat⟩]
      | .crc8 d r => [⟨.din, d.toNat⟩, ⟨.remIn, r.toNat⟩]
      | .accClear => []
      | .accUpdate d => [⟨.din, d.toNat⟩]
      | .pecWriteByte a c d | .pecReadByte a c d => [⟨.addr, a.toNat⟩, ⟨.cmd, c.toNat⟩, ⟨.data, d.toNat⟩]
      | .pecWriteWord a c d | .pecReadWord a c d => [⟨.addr, a.toNat⟩, ⟨.cmd, c.toNat⟩, ⟨.data, d.toNat⟩]
      | .pecReadByteTest a c d p => [⟨.addr, a.toNat⟩, ⟨.cmd, c.toNat⟩, ⟨.data, d.toNat⟩, ⟨.pecIn, p.toNat⟩]
      | .pecReadWordTest a c d p => [⟨.addr, a.toNat⟩, ⟨.cmd, c.toNat⟩, ⟨.data, d.toNat⟩, ⟨.pecIn, p.toNat⟩] }

/-! ### The CRC as polynomial arithmetic (42_crc_pec.md R137) -/

/-- The product, over GF(2), of the polynomial `q` and `P(x) = x^8 + x^2 + x + 1`, whose bits are 0x107; `n` counts the
coefficients of `q` taken. -/
def timesP (q : Byte) : Nat → BitVec 16
  | 0 => 0#16
  | n + 1 => timesP q n ^^^ (if q.getLsbD n then 0x0107#16 <<< n else 0#16)

/-- `r` is the remainder of `v(x) · x^8` divided by `P(x)` over GF(2): some quotient `q` gives `q · P + r`, and `r` has
degree below 8 by its width (R137). -/
def RemainderOfShifted (v r : Byte) : Prop :=
  ∃ q : Byte, timesP q 8 ^^^ r.setWidth 16 = v.setWidth 16 <<< 8

/-! ### ACC over a sequence of words (R23, R142, R193) -/

/-- ACC after the block has executed one word, by R23 alone. -/
def accAfterWord (acc : Byte) (w : Command) : Byte :=
  match decode w with
  | .command .accClear => 0x00#8
  | .command (.accUpdate d) => crc8 d acc
  | _ => acc

/-- The words of one transaction's bytes streamed through ACC (R142). -/
def updateWords (frame : List Byte) : List Command := frame.map fun b => encode (.accUpdate b)

/-! ### Invariants -/

/-- What the response port shows of the block: `ACC_OUT` is ACC, bits 31:27 are 0, and a report of a reserved command
reports nothing else (R27, R28, R31). -/
def ResponseInv (s : State) : Prop :=
  rspAccOut s.rsp = s.acc ∧ rspReserved s.rsp = 0#5 ∧
    (rspOpErr s.rsp = true → rspResult s.rsp = 0#16 ∧ rspWhole s.rsp = false ∧ rspDescErr s.rsp = false)

/-- A procedure in progress holds what it should: its subaddress is the tag's, its path is the one the size chooses, and
the word it will write back is the merge of the word it read (R121, R122, R124). -/
def PhaseInv : Phase → Prop
  | .ready => True
  | .writeDirect _ tag _ c => c.toNat = tagSub tag ∧ tagSize tag = 16
  | .writeFetch _ tag _ c => c.toNat = tagSub tag ∧ tagSize tag < 16
  | .writeMerge _ tag _ c _ => c.toNat = tagSub tag ∧ tagSize tag < 16
  | .writeBack _ tag v c old word => c.toNat = tagSub tag ∧ tagSize tag < 16 ∧ word = mergeField tag old v
  | .readFetch _ tag c => c.toNat = tagSub tag
  | .readExtract _ tag c _ => c.toNat = tagSub tag

/-- Every host's procedure in progress holds what it should. -/
def HostsInv (s : State) : Prop := ∀ a ∈ s.hosts, PhaseInv a.phase

/-- The transport call `e` is the one the rules give the host `a` at its phase: the primitive, bus address, subaddress and
configuration of its handle and tag, and for a write the word (R44, R120 to R124, R128). -/
def CallOf (a : HostAgent) (e : BusEvent) : Prop :=
  match a.phase, e with
  | .writeDirect h tag v _, .write fn ad c cfg d _ _ =>
    fn = h.writeFn ∧ ad = h.addr ∧ c.toNat = tagSub tag ∧ cfg = h.config ∧ d = v ∧ tagSize tag = 16
  | .writeFetch h tag _ _, .read fn ad c cfg _ _ _ =>
    fn = h.readFn ∧ ad = h.addr ∧ c.toNat = tagSub tag ∧ cfg = h.config ∧ tagSize tag < 16
  | .writeBack h tag v _ old _, .write fn ad c cfg d _ _ =>
    fn = h.writeFn ∧ ad = h.addr ∧ c.toNat = tagSub tag ∧ cfg = h.config ∧ d = mergeField tag old v ∧ tagSize tag < 16
  | .readFetch h tag _, .read fn ad c cfg _ _ _ =>
    fn = h.readFn ∧ ad = h.addr ∧ c.toNat = tagSub tag ∧ cfg = h.config
  | _, _ => False

/-! ### Safe runs (93_implementation_defined.md K2, K11; R191) -/

/-- A call that keeps the host's duties: a safe word, or a procedure on a valid descriptor. -/
def SafeCall : HostCall → Prop
  | .command w => SafeWord w
  | .writeField _ tag _ => ValidTag tag
  | .readField _ tag => ValidTag tag

/-- A procedure in progress works on a valid descriptor. -/
def SafePhase : Phase → Prop
  | .ready => True
  | .writeDirect _ tag _ _ | .writeFetch _ tag _ _ | .writeMerge _ tag _ _ _ | .writeBack _ tag _ _ _ _ => ValidTag tag
  | .readFetch _ tag _ | .readExtract _ tag _ _ => ValidTag tag

/-- The hosts keep their duties: no reserved word and no invalid descriptor is, or will be, presented to the block. -/
def DutiesKept (s : State) : Prop :=
  (∀ w ∈ s.commands, SafeWord w) ∧ ∀ a ∈ s.hosts, SafePhase a.phase ∧ ∀ c ∈ a.calls, SafeCall c

/-! ### The parameter RegisterMap (20_memory.md R45, R52; K8) -/

/-- A law on the calls of the transport: which histories of calls the device allows. Left open; a claim that needs one
takes it as a hypothesis (log entry 11). -/
abbrev RegisterMap := List BusEvent → Prop

/-- The word last written with success to a register of the device at `ad`, or its first value. -/
def lastWritten (ad : BusAddr) (c : Byte) (first : Half) : List BusEvent → Half
  | [] => first
  | .read _ _ _ _ _ _ _ :: es => lastWritten ad c first es
  | .write _ ad' c' _ d st _ :: es =>
    lastWritten ad c (if ad' = ad ∧ c' = c ∧ st = 0 then d else first) es

/-- The plain-storage device of 95_test_vectors.md's program 4, one choice of the parameter: every successful read gives
the word last written to that register, and `first` before any write. -/
def plainStorage (first : Half) : RegisterMap := fun log =>
  ∀ n fn ad c cfg d pt, log[n]? = some (.read fn ad c cfg 0 (some d) pt) → d = lastWritten ad c first (log.take n)

end Sys2Proof.Safety
end

