-- ==== Sys2Proof/Certificates/Slice0/Obligations.lean ====
section
/-! DEFINITION. The statements for the provers. `Safety.Answers s t acc result whole descErr` says that `t` is `s` with ACC
and the response as given, `OP_ERR` 0, bits 31:27 of the response 0, and nothing else changed: every statement that uses
it is a completion, a result and a frame statement in one. -/

open Sys2Proof Sys2Proof.Machine Sys2Proof.Safety

/-! ### Reset, the step, reserved words -/

/-- R24, R186, R189: reset leaves ACC and the response 0, at the start and whenever it comes, and touches nothing else. -/
def Obligations.ResetClearsTheBlockOnly : Prop :=
  State.reset.acc = 0x00#8 ∧ State.reset.rsp = 0x00000000#32 ∧
  ∀ (s : State) (ts : List Turn), s.turns = .reset :: ts →
    step s = .next { s with acc := 0x00#8, rsp := 0x00000000#32, turns := ts }

/-- R188: reset may be applied between any two steps, changes ACC as ACC_CLEAR does, and produces no response beyond
R190's zero word; so a reset in the middle of an ACC sequence discards its remainder. -/
def Obligations.ResetHasTheEffectOfAccClearOnAcc : Prop :=
  ∀ (s : State) (ts : List Turn), s.turns = .reset :: ts →
    ∃ t u, step s = .next t ∧ exec .accClear s = .next u ∧ t.acc = u.acc ∧ t.rsp = 0x00000000#32 ∧ t.commands = s.commands

/-- R61 (with the port and the turns of log entries 1 and 12): the step executes the decoded word at the head of the
command port, in the state with that word taken. -/
def Obligations.StepExecutesThePresentedCommand : Prop :=
  ∀ (s : State) (w : Command) (ws : List Command) (i : Instr), s.commands = w :: ws → decode w = .command i →
    (∀ ts, s.turns = .command :: ts → step s = exec i { s with commands := ws, turns := ts }) ∧
    (s.turns = [] → step s = exec i { s with commands := ws })

/-- R187: with no word presented and no host with anything to do, the block waits. -/
def Obligations.IdleBlockWaits : Prop :=
  ∀ s : State, s.turns = [] → s.commands = [] → (∀ a ∈ s.hosts, a.phase = .ready ∧ a.calls = []) → step s = .next s

/-- R31, R74, R75: a word is reserved exactly by R74's list; executing it sets `OP_ERR` alone, with `RESULT` 0, and changes
ACC and all else not at all; executing any other word leaves `OP_ERR` 0; a model that treats it as a fault stops so. -/
def Obligations.ReservedWordReportsOpErr : Prop :=
  ∀ (s : State) (w : Command) (ws : List Command) (ts : List Turn), s.commands = w :: ws → s.turns = .command :: ts →
    (ReservedWord w → ∃ t, step s = .next t ∧ t.rsp.toNat = 2 ^ 26 + s.acc.toNat * 2 ^ 16 ∧
      t = { s with rsp := t.rsp, commands := ws, turns := ts }) ∧
    (ReservedWord w → stepUnder Config.strictPolicy s = .fault (.reservedCommand w)) ∧
    (¬ReservedWord w → ∃ t, step s = .next t ∧ rspOpErr t.rsp = false)

/-- R19, R166: no operation can block, hang or fail to complete: every step of every state answers a next state. -/
def Obligations.EveryStepCompletes : Prop := ∀ s : State, ∃ t, step s = .next t

/-! ### Encoding -/

/-- R77, R79: the spec's worked words decode to the commands they stand for. -/
def Obligations.WorkedWordsDecode : Prop :=
  decode 0x0000120004000401#64 = .command (.encodeDesc 4#4 4#5 0x12#8) ∧
  decode 0x0000FF0010000001#64 = .command (.encodeDesc 0#4 16#5 0xFF#8) ∧
  decode 0x0000000000431203#64 = .command (.decSize 0x4312#16) ∧
  decode 0x0000000000431205#64 = .command (.mask 0x4312#16) ∧
  decode 0x00000AF0F0431206#64 = .command (.fieldMerge 0x4312#16 0xF0F0#16 0x000A#16) ∧
  decode 0x000000F0A0431207#64 = .command (.fieldExtract 0x4312#16 0xF0A0#16) ∧
  decode 0x000000000000D008#64 = .command (.crc8 0xD0#8 0x00#8) ∧
  decode 0x0000000000000009#64 = .command .accClear ∧
  decode 0x000000000000D00A#64 = .command (.accUpdate 0xD0#8) ∧
  decode 0x0012340007006811#64 = .command (.pecWriteWord 0x68#7 0x07#8 0x1234#16) ∧
  decode 0x9812340007006815#64 = .command (.pecReadWordTest 0x68#7 0x07#8 0x1234#16 0x98#8)

/-- R72, R73: a word stands for a command exactly when its low byte is that command's code with `RSV = 0`. -/
def Obligations.LowByteSelectsTheCommand : Prop :=
  ∀ (w : Command) (m : Mnemonic), (∃ i, decode w = .command i ∧ i.mnemonic = m) ↔ (w.toNat % 256, m) ∈ opcodeMap

/-- R62, R64: every instruction, at every value of its operands, is decoded from its own word. -/
def Obligations.DecodeInvertsEncode : Prop := ∀ i : Instr, decode (encode i) = .command i

/-- R64, R65, R77: a word that decodes to a command is that command's word but for don't-care bits. -/
def Obligations.EncodeKeepsTheCareBits : Prop :=
  ∀ (w : Command) (i : Instr), decode w = .command i → encode i = w &&& careMask i.mnemonic

/-- R65: don't-care bits change no result and no flag and never make a command reserved: words that agree on the bits a
command uses decode alike, and the block does the same with them. -/
def Obligations.DontCareBitsAreIgnored : Prop :=
  ∀ (w v : Command) (i : Instr), decode w = .command i → v &&& careMask i.mnemonic = w &&& careMask i.mnemonic →
    decode v = .command i ∧ ∀ s : State, runCommand Config.policy v s = runCommand Config.policy w s

/-- R62: a command word is, as a number, the sum of its slots and its code at their places. -/
def Obligations.CommandWordIsTheSumOfItsSlots : Prop :=
  ∀ (op : BitVec 5) (s1 s2 s3 : Half) (s4 : Byte),
    (packCommand op s1 s2 s3 s4).toNat =
      s4.toNat * 2 ^ 56 + s3.toNat * 2 ^ 40 + s2.toNat * 2 ^ 24 + s1.toNat * 2 ^ 8 + op.toNat

/-- R77: the line that names every operand of an instruction assembles to the instruction's word. -/
def Obligations.AssembledLineIsTheEncodedWord : Prop := ∀ i : Instr, assemble (asmLine i) = some (encode i)

/-- R77: operands may appear in any order, and an omitted operand assembles to 0. -/
def Obligations.AssemblerTakesOperandsInAnyOrder : Prop :=
  (∀ (m : Mnemonic) (as bs : List AsmArg), as.Perm bs →
    assemble { mnemonic := m, args := as } = assemble { mnemonic := m, args := bs }) ∧
  (∀ (m : Mnemonic) (n : OperandName) (as : List AsmArg), ({ mnemonic := m, args := ⟨n, 0⟩ :: as } : AsmCommand).wf = true →
    assemble { mnemonic := m, args := ⟨n, 0⟩ :: as } = assemble { mnemonic := m, args := as })

/-- R27: the layout of the response word, as a number. -/
def Obligations.ResponseWordLayout : Prop :=
  ∀ (f : Flags) (acc : Byte) (result : Half),
    (packRsp f acc result).toNat =
      f.opErr.toNat * 2 ^ 26 + f.descErr.toNat * 2 ^ 25 + f.whole.toNat * 2 ^ 24 + acc.toNat * 2 ^ 16 + result.toNat

/-! ### The descriptor codec -/

/-- R91: ENCODE completes for every operand, in or out of its precondition, with the packed tag, `size_in - 1` modulo 16,
and the flags R91 gives. -/
def Obligations.EncodePacksTheDescriptor : Prop :=
  ∀ (o : BitVec 4) (z : BitVec 5) (a : Byte) (s : State), ∃ t, exec (.encodeDesc o z a) s = .next t ∧
    ∃ whole descErr, Answers s t s.acc
        (BitVec.ofNat 16 (o.toNat * 4096 + (z.toNat + 15) % 16 * 256 + a.toNat)) whole descErr ∧
      (whole = true ↔ z.toNat = 16) ∧ (descErr = true ↔ ¬ValidFields o.toNat z.toNat)

/-- R92, R93, R94: the three decodes complete for every tag, with the field's number, and flag whole-register and invalid
descriptors. -/
def Obligations.DecodesReadTheTagFields : Prop :=
  ∀ (tag : Half) (s : State), ∃ whole descErr,
    (whole = true ↔ tagSize tag = 16) ∧ (descErr = true ↔ ¬ValidTag tag) ∧
    (∃ t, exec (.decSubaddr tag) s = .next t ∧ Answers s t s.acc (BitVec.ofNat 16 (tagSub tag)) whole descErr) ∧
    (∃ t, exec (.decSize tag) s = .next t ∧ Answers s t s.acc (BitVec.ofNat 16 (tagSize tag)) whole descErr) ∧
    (∃ t, exec (.decOffset tag) s = .next t ∧ Answers s t s.acc (BitVec.ofNat 16 (tagOffset tag)) whole descErr)

/-- R95, R96, R98: MASK completes for every tag; bit `i` of its result is 1 exactly from `OFF` to
`min(15, OFF + SZ - 1)`. -/
def Obligations.MaskIsTheRunOfTheField : Prop :=
  ∀ (tag : Half) (s : State), ∃ t, exec (.mask tag) s = .next t ∧ ∃ m whole descErr,
    Answers s t s.acc m whole descErr ∧ (whole = true ↔ tagSize tag = 16) ∧ (descErr = true ↔ ¬ValidTag tag) ∧
    ∀ i : Nat, m.getLsbD i = true ↔ tagOffset tag ≤ i ∧ i ≤ min 15 (tagOffset tag + tagSize tag - 1)

/-- R97, R99: the mask of a valid descriptor has `SZ` ones, the lowest at `OFF`, and is the closed form computed without
bound; for offset 0 and size 16 it is 0xFFFF. -/
def Obligations.MaskOfAValidDescriptor : Prop :=
  ∀ (tag : Half) (s : State), ValidTag tag → ∃ m, resultOf (.mask tag) s = some m ∧
    popcount m = tagSize tag ∧ m.getLsbD (tagOffset tag) = true ∧ (∀ i < tagOffset tag, m.getLsbD i = false) ∧
    m.toNat = (2 ^ tagSize tag - 1) * 2 ^ tagOffset tag ∧
    (tagOffset tag = 0 → tagSize tag = 16 → m = 0xFFFF#16)

/-- R100: decoding an encoded valid descriptor gives it back; encoding the decodes of any tag, valid or not, gives the tag
back. -/
def Obligations.DescriptorRoundTrip : Prop :=
  (∀ (o : BitVec 4) (z : BitVec 5) (a : Byte) (s : State), ValidFields o.toNat z.toNat →
    ∃ tag, resultOf (.encodeDesc o z a) s = some tag ∧ resultOf (.decOffset tag) s = some (o.setWidth 16) ∧
      resultOf (.decSize tag) s = some (z.setWidth 16) ∧ resultOf (.decSubaddr tag) s = some (a.setWidth 16)) ∧
  (∀ (tag : Half) (s : State), ∃ o z a, resultOf (.decOffset tag) s = some o ∧ resultOf (.decSize tag) s = some z ∧
    resultOf (.decSubaddr tag) s = some a ∧ o.toNat < 2 ^ 4 ∧ z.toNat < 2 ^ 5 ∧ a.toNat < 2 ^ 8 ∧
    resultOf (.encodeDesc (o.setWidth 4) (z.setWidth 5) (a.setWidth 8)) s = some tag)

/-! ### Merge and extract -/

/-- R111, R112: FIELD_MERGE completes for every operand; a size of 16 gives `value`; else bit `j` of the result is the
value's bit `j - OFF` inside the field (cut at bit 15) and the register's outside it. -/
def Obligations.FieldMergeReplacesTheFieldOnly : Prop :=
  ∀ (tag regIn value : Half) (s : State), ∃ t, exec (.fieldMerge tag regIn value) s = .next t ∧ ∃ n whole descErr,
    Answers s t s.acc n whole descErr ∧ (whole = true ↔ tagSize tag = 16) ∧ (descErr = true ↔ ¬ValidTag tag) ∧
    (tagSize tag = 16 → n = value) ∧
    (tagSize tag < 16 → ∀ j < 16, n.getLsbD j =
      if tagOffset tag ≤ j ∧ j < tagOffset tag + tagSize tag then value.getLsbD (j - tagOffset tag)
      else regIn.getLsbD j)

/-- R113: FIELD_EXTRACT completes for every operand; a size of 16 gives the register; else bit `j` is the register's bit
`OFF + j` inside the field (cut at bit 15) and 0 above it, so the result is below `2^w` and never sign-extended. -/
def Obligations.FieldExtractReadsTheField : Prop :=
  ∀ (tag regIn : Half) (s : State), ∃ t, exec (.fieldExtract tag regIn) s = .next t ∧ ∃ v whole descErr,
    Answers s t s.acc v whole descErr ∧ (whole = true ↔ tagSize tag = 16) ∧ (descErr = true ↔ ¬ValidTag tag) ∧
    (tagSize tag = 16 → v = regIn) ∧
    (tagSize tag < 16 → v.toNat < 2 ^ tagSize tag ∧ ∀ j : Nat, v.getLsbD j =
      (decide (j < tagSize tag ∧ tagOffset tag + j < 16) && regIn.getLsbD (tagOffset tag + j)))

/-- R114: extracting a merged field gives the low `w` bits of the value (all of it for `w = 16`); merging back an extracted
field changes nothing. -/
def Obligations.ExtractAndMergeAreInverse : Prop :=
  ∀ (tag r v : Half) (s : State), ValidTag tag →
    (∃ n x, resultOf (.fieldMerge tag r v) s = some n ∧ resultOf (.fieldExtract tag n) s = some x ∧
      x.toNat = v.toNat % 2 ^ tagSize tag) ∧
    (∃ x, resultOf (.fieldExtract tag r) s = some x ∧ resultOf (.fieldMerge tag r x) s = some r)

/-! ### CRC, ACC, PEC -/

/-- R137, R141: CRC8 completes for every operand, leaves ACC, sets no flag, and answers the one remainder of
`(rem_in ^ din)(x) · x^8` divided by `x^8 + x^2 + x + 1`: it is a remainder, and every remainder is it. -/
def Obligations.Crc8IsThePolynomialRemainder : Prop :=
  ∀ (d r : Byte) (s : State), ∃ t, exec (.crc8 d r) s = .next t ∧ ∃ n : Byte,
    Answers s t s.acc (n.setWidth 16) false false ∧ RemainderOfShifted (r ^^^ d) n ∧
    ∀ m : Byte, RemainderOfShifted (r ^^^ d) m → m = n

/-- R137, R141, R144: a byte that is a remainder for `prev ^ byte` is what the machine answers: CRC8 of that byte and
remainder, and ACC_UPDATE of that byte where ACC is `prev`, whatever route the byte was found by. -/
def Obligations.AnyRemainderIsTheMachinesAnswer : Prop :=
  ∀ (d n : Byte) (s : State), RemainderOfShifted (s.acc ^^^ d) n →
    resultOf (.crc8 d s.acc) s = some (n.setWidth 16) ∧ resultOf (.accUpdate d) s = some (n.setWidth 16) ∧
    ∃ t, exec (.accUpdate d) s = .next t ∧ t.acc = n

/-- R139: the laws of the one-byte update. -/
def Obligations.Crc8Laws : Prop :=
  (∀ b r : Byte, crc8 b r = crc8 (b ^^^ r) 0#8) ∧
  (∀ b c : Byte, crc8 (b ^^^ c) 0#8 = crc8 b 0#8 ^^^ crc8 c 0#8) ∧
  crc8 0#8 0#8 = 0#8 ∧
  (∀ r : Byte, Function.Bijective fun b => crc8 b r) ∧
  (∀ n : Nat, foldCrc 0#8 (List.replicate n 0#8) = 0#8)

/-- R143: ACC_CLEAR completes, leaves ACC 0 and answers the zero word. -/
def Obligations.AccClearClearsAcc : Prop :=
  ∀ s : State, ∃ t, exec .accClear s = .next t ∧ Answers s t 0x00#8 0x0000#16 false false ∧ t.rsp = 0x00000000#32

/-- R144: ACC_UPDATE completes; ACC becomes, and the result is, what CRC8 answers for the byte and the old ACC; a byte
equal to ACC clears it. -/
def Obligations.AccUpdateFoldsTheByte : Prop :=
  ∀ (d : Byte) (s : State), ∃ t n, exec (.accUpdate d) s = .next t ∧
    resultOf (.crc8 d s.acc) s = some (n.setWidth 16) ∧ Answers s t n (n.setWidth 16) false false ∧
    RemainderOfShifted (s.acc ^^^ d) n ∧ (d = s.acc → n = 0x00#8)

/-- R146, R147: the write PECs complete for every operand with the fold, from 0 and not from ACC, of
`[2·addr, cmd, low byte, high byte]`, the byte form without the high byte. -/
def Obligations.PecWriteFoldsTheFrame : Prop :=
  ∀ (a : BusAddr) (c : Byte) (d : Half) (s : State),
    (∃ t, exec (.pecWriteByte a c (d.setWidth 8)) s = .next t ∧ Answers s t s.acc
      ((foldCrc 0#8 [BitVec.ofNat 8 (2 * a.toNat), c, BitVec.ofNat 8 (d.toNat % 256)]).setWidth 16) false false) ∧
    (∃ t, exec (.pecWriteWord a c d) s = .next t ∧ Answers s t s.acc
      ((foldCrc 0#8 [BitVec.ofNat 8 (2 * a.toNat), c, BitVec.ofNat 8 (d.toNat % 256),
        BitVec.ofNat 8 (d.toNat / 256)]).setWidth 16) false false)

/-- R148, R149: the read PECs complete for every operand with the fold, from 0 and not from ACC, of
`[2·addr, cmd, 2·addr + 1, low byte, high byte]`, the byte form without the high byte. -/
def Obligations.PecReadFoldsTheFrame : Prop :=
  ∀ (a : BusAddr) (c : Byte) (d : Half) (s : State),
    (∃ t, exec (.pecReadByte a c (d.setWidth 8)) s = .next t ∧ Answers s t s.acc
      ((foldCrc 0#8 [BitVec.ofNat 8 (2 * a.toNat), c, BitVec.ofNat 8 (2 * a.toNat + 1),
        BitVec.ofNat 8 (d.toNat % 256)]).setWidth 16) false false) ∧
    (∃ t, exec (.pecReadWord a c d) s = .next t ∧ Answers s t s.acc
      ((foldCrc 0#8 [BitVec.ofNat 8 (2 * a.toNat), c, BitVec.ofNat 8 (2 * a.toNat + 1),
        BitVec.ofNat 8 (d.toNat % 256), BitVec.ofNat 8 (d.toNat / 256)]).setWidth 16) false false)

/-- R150, R151: the PEC tests complete for every operand, as results and with no flag: 0 when the received byte is the
PEC the read operation answers, `MISMATCH_VALUE` otherwise, which the model fixes at its default 0x0001 (DESIGN CHOICE, log
entry 4; K3). -/
def Obligations.PecTestsCompareThePec : Prop :=
  ∀ (a : BusAddr) (c p : Byte) (s : State),
    (∀ d : Byte, ∃ t e, exec (.pecReadByteTest a c d p) s = .next t ∧
      resultOf (.pecReadByte a c d) s = some ((e : Byte).setWidth 16) ∧
      Answers s t s.acc (if e = p then 0x0000#16 else 0x0001#16) false false) ∧
    (∀ d : Half, ∃ t e, exec (.pecReadWordTest a c d p) s = .next t ∧
      resultOf (.pecReadWord a c d) s = some ((e : Byte).setWidth 16) ∧
      Answers s t s.acc (if e = p then 0x0000#16 else 0x0001#16) false false)

/-- R152: a PEC tests as good against itself, and flipping any one of its bits makes the test fail, for bytes and words. -/
def Obligations.PecTestRoundTrip : Prop :=
  ∀ (a : BusAddr) (c : Byte) (s : State),
    (∀ d : Half, ∃ e, resultOf (.pecReadWord a c d) s = some e ∧
      resultOf (.pecReadWordTest a c d (e.setWidth 8)) s = some 0#16 ∧
      ∀ i < 8, ∃ x, resultOf (.pecReadWordTest a c d (e.setWidth 8 ^^^ (1#8 <<< i))) s = some x ∧ x ≠ 0#16) ∧
    (∀ d : Byte, ∃ e, resultOf (.pecReadByte a c d) s = some e ∧
      resultOf (.pecReadByteTest a c d (e.setWidth 8)) s = some 0#16 ∧
      ∀ i < 8, ∃ x, resultOf (.pecReadByteTest a c d (e.setWidth 8 ^^^ (1#8 <<< i))) s = some x ∧ x ≠ 0#16)

/-- R142: streaming a frame's bytes, after ACC_CLEAR or from an ACC of 0, leaves in ACC the PEC that the one-shot operation
answers, for each of the four frames. The words wait on the port and no turn is listed (log entries 1 and 12). -/
def Obligations.StreamedPecEqualsOneShotPec : Prop :=
  ∀ (a : BusAddr) (c b : Byte) (d : Half) (frame : List Byte) (i : Instr),
    (frame, i) ∈ [(frameWriteByte a c b, Instr.pecWriteByte a c b), (frameWriteWord a c d, .pecWriteWord a c d),
      (frameReadByte a c b, .pecReadByte a c b), (frameReadWord a c d, .pecReadWord a c d)] →
    ∀ (s : State) (ws : List Command), s.turns = [] →
      (s.commands = encode .accClear :: updateWords frame ++ ws → ∃ t,
        core.run (frame.length + 1) s = .next t ∧ resultOf i s = some (t.acc.setWidth 16) ∧ t.commands = ws) ∧
      (s.acc = 0#8 → s.commands = updateWords frame ++ ws → ∃ t,
        core.run frame.length s = .next t ∧ resultOf i s = some (t.acc.setWidth 16) ∧ t.commands = ws)

/-- R23, R193, R194: whatever words are presented, in whatever order, ACC after them is the fold of the ACC_UPDATE bytes
since the last ACC_CLEAR, other words (reserved ones too, which report: log entry 2) leaving it alone; with no ACC_CLEAR the
old ACC is folded from. The words wait on the port and no turn is listed (log entries 1 and 12). -/
def Obligations.AccFollowsTheAccOperations : Prop :=
  ∀ (ws rest : List Command) (s : State), s.turns = [] → s.commands = ws ++ rest →
    ∃ t, core.run ws.length s = .next t ∧ t.acc = ws.foldl accAfterWord s.acc ∧ t.commands = rest ∧
      t.hosts = s.hosts ∧ t.transport = s.transport

/-! ### Rules of the whole machine -/

/-- R23: only ACC_CLEAR and ACC_UPDATE write ACC, reserved words included among the others; and no move of a WRITE_FIELD or
READ_FIELD does. -/
def Obligations.OnlyAccOperationsWriteAcc : Prop :=
  (∀ (p : Policy) (w : Command) (s t : State), runCommand p w s = .next t → decode w ≠ .command .accClear →
    (∀ d, decode w ≠ .command (.accUpdate d)) → t.acc = s.acc) ∧
  (∀ (p : Policy) (k : Nat) (a : HostAgent) (s t : State), moveHost p k a s = .next t →
    (a.phase = .ready → ∀ w cs, a.calls ≠ .command w :: cs) → t.acc = s.acc)

/-- R25: the result and the flags of every command but ACC_UPDATE are a function of its command word alone. -/
def Obligations.StatelessResultsDependOnTheWordAlone : Prop :=
  ∀ (w : Command) (s u : State), (∀ d, decode w ≠ .command (.accUpdate d)) →
    ∃ t v, runCommand Config.policy w s = .next t ∧ runCommand Config.policy w u = .next v ∧
      rspResult t.rsp = rspResult v.rsp ∧ rspWhole t.rsp = rspWhole v.rsp ∧
      rspDescErr t.rsp = rspDescErr v.rsp ∧ rspOpErr t.rsp = rspOpErr v.rsp

/-- R27, R28, R31: every step, under either policy, keeps the response port in agreement with the block: `ACC_OUT` is ACC,
bits 31:27 are 0, and `OP_ERR` comes with nothing else. -/
def Obligations.StepKeepsTheResponseInvariant : Prop :=
  ∀ (p : Policy) (s t : State), ResponseInv s → stepUnder p s = .next t → ResponseInv t

/-- R27, R190: the invariant holds at reset. -/
def Obligations.ResponseInvariantAtReset : Prop := ResponseInv State.reset

/-- R121, R122, R124: every step keeps the hosts' procedures as they should be. -/
def Obligations.StepKeepsTheHostsInvariant : Prop :=
  ∀ (p : Policy) (s t : State), HostsInv s → stepUnder p s = .next t → HostsInv t

/-- The hosts' invariant holds whenever no host is in a procedure, at reset and whatever calls are to come. -/
def Obligations.HostsInvariantBeforeAnyProcedure : Prop :=
  HostsInv State.reset ∧ ∀ s : State, (∀ a ∈ s.hosts, a.phase = .ready) → HostsInv s

/-- K2 (93_implementation_defined.md), R30: under the policy `fault` for descriptors a step faults exactly when the word the
block executes in it has an invalid descriptor, whoever presents the word: the port, a host's own command, or a procedure; every
other step is the one under `compute`. The same of one executed word. That the machine's own policy computes is log entry 3;
whose word a step executes rests on log entries 1, 12 and 16. -/
def Obligations.DescriptorPolicyFaultsOnInvalidDescriptors : Prop :=
  ∀ (q : ReservedPolicy) (s : State),
    (∀ w : Command,
      (InvalidWord w → runCommand { reserved := q, descriptor := .fault } w s = .fault (.invalidDescriptor w)) ∧
      (¬InvalidWord w → runCommand { reserved := q, descriptor := .fault } w s =
        runCommand { reserved := q, descriptor := .compute } w s)) ∧
    (∀ w, executedWord s = some w → InvalidWord w →
      stepUnder { reserved := q, descriptor := .fault } s = .fault (.invalidDescriptor w)) ∧
    ((∀ w, executedWord s = some w → ¬InvalidWord w) →
      stepUnder { reserved := q, descriptor := .fault } s = stepUnder { reserved := q, descriptor := .compute } s)

/-- K2, K11, R191: where the hosts keep their duties (no reserved word, valid descriptors only), no step faults even under the
strict policy, it is the machine's own step, and the duties stay kept. -/
def Obligations.KeptDutiesNeverFault : Prop :=
  ∀ s : State, DutiesKept s →
    ∃ t, stepUnder Config.strictPolicy s = .next t ∧ step s = .next t ∧ DutiesKept t

/-! ### The host access protocol -/

/-- R121: WRITE_FIELD on a whole-register field is one DEC_SUBADDR and one transport write of `value` to `SUB(tag)`, no read;
its status is the result. -/
def Obligations.WriteFieldOfAWholeRegister : Prop :=
  ∀ (s : State) (k : Nat) (a : HostAgent) (h : Handle) (tag value : Half) (cs : List HostCall) (ts : List Turn),
    s.hosts[k]? = some a → a.phase = .ready → a.calls = .writeField h tag value :: cs →
    s.turns = .host k :: .host k :: ts → tagSize tag = 16 →
    ∃ t, core.run 2 s = .next t ∧
      t.transport.log = s.transport.log ++ [.write h.writeFn h.addr (BitVec.ofNat 8 (tagSub tag)) h.config value
        s.transport.reply.status (writePecSent s.transport.pecEnabled h.addr (BitVec.ofNat 8 (tagSub tag)) value)] ∧
      t.hosts[k]? = some (HostAgent.mk .ready cs (a.returned ++ [.writeField s.transport.reply.status])) ∧
      t.acc = s.acc ∧ t.commands = s.commands ∧ t.turns = ts

/-- R122, R125: WRITE_FIELD on a smaller field, its read having succeeded: DEC_SUBADDR, read, FIELD_MERGE, write of the merged
word, in four moves; the write's status is the result. -/
def Obligations.WriteFieldByReadModifyWrite : Prop :=
  ∀ (s : State) (k : Nat) (a : HostAgent) (h : Handle) (tag value : Half) (cs : List HostCall) (ts : List Turn) (c : Byte),
    s.hosts[k]? = some a → a.phase = .ready → a.calls = .writeField h tag value :: cs →
    s.turns = .host k :: .host k :: .host k :: .host k :: ts → tagSize tag < 16 → c = BitVec.ofNat 8 (tagSub tag) →
    s.transport.reply.status = 0 →
    ∃ t n, core.run 4 s = .next t ∧
      resultOf (.fieldMerge tag s.transport.reply.data value) s = some n ∧
      t.transport.log = s.transport.log ++
        [.read h.readFn h.addr c h.config 0 (some s.transport.reply.data)
          (readPecTest s.transport.pecEnabled h.addr c s.transport.reply),
         .write h.writeFn h.addr c h.config n (s.transportRead h c).transport.reply.status
          (writePecSent s.transport.pecEnabled h.addr c n)] ∧
      t.hosts[k]? = some (HostAgent.mk .ready cs (a.returned ++ [.writeField (s.transportRead h c).transport.reply.status])) ∧
      t.acc = s.acc ∧ t.commands = s.commands ∧ t.turns = ts

/-- R123, R125: a failed read ends WRITE_FIELD with the read's status; no write is issued. -/
def Obligations.FailedReadStopsTheWrite : Prop :=
  ∀ (s : State) (k : Nat) (a : HostAgent) (h : Handle) (tag value : Half) (cs : List HostCall) (ts : List Turn) (c : Byte),
    s.hosts[k]? = some a → a.phase = .ready → a.calls = .writeField h tag value :: cs →
    s.turns = .host k :: .host k :: ts → tagSize tag < 16 → c = BitVec.ofNat 8 (tagSub tag) →
    s.transport.reply.status ≠ 0 →
    ∃ t, core.run 2 s = .next t ∧
      t.transport.log = s.transport.log ++
        [.read h.readFn h.addr c h.config s.transport.reply.status none none] ∧
      t.hosts[k]? = some (HostAgent.mk .ready cs (a.returned ++ [.writeField s.transport.reply.status])) ∧
      t.acc = s.acc ∧ t.commands = s.commands ∧ t.turns = ts

/-- R124: READ_FIELD issues one transport read whatever the field's size; on success it returns the extracted field and status
0, on failure the read's status and no value. -/
def Obligations.ReadFieldReturnsTheField : Prop :=
  ∀ (s : State) (k : Nat) (a : HostAgent) (h : Handle) (tag : Half) (cs : List HostCall) (ts : List Turn) (c : Byte),
    s.hosts[k]? = some a → a.phase = .ready → a.calls = .readField h tag :: cs → c = BitVec.ofNat 8 (tagSub tag) →
    (s.transport.reply.status = 0 → s.turns = .host k :: .host k :: .host k :: ts →
      ∃ t v, core.run 3 s = .next t ∧ resultOf (.fieldExtract tag s.transport.reply.data) s = some v ∧
        t.transport.log = s.transport.log ++ [.read h.readFn h.addr c h.config 0 (some s.transport.reply.data)
          (readPecTest s.transport.pecEnabled h.addr c s.transport.reply)] ∧
        t.hosts[k]? = some (HostAgent.mk .ready cs (a.returned ++ [.readField (some v) 0])) ∧
        t.acc = s.acc ∧ t.turns = ts) ∧
    (s.transport.reply.status ≠ 0 → s.turns = .host k :: .host k :: ts →
      ∃ t, core.run 2 s = .next t ∧
        t.transport.log = s.transport.log ++
          [.read h.readFn h.addr c h.config s.transport.reply.status none none] ∧
        t.hosts[k]? = some (HostAgent.mk .ready cs (a.returned ++ [.readField none s.transport.reply.status])) ∧
        t.acc = s.acc ∧ t.turns = ts)

/-- R53: a command a host issues completes within its move, and the response reaches the host then. -/
def Obligations.HostReceivesTheResponseOfItsCommand : Prop :=
  ∀ (s : State) (k : Nat) (a : HostAgent) (w : Command) (cs : List HostCall) (ts : List Turn),
    s.hosts[k]? = some a → a.phase = .ready → a.calls = .command w :: cs → s.turns = .host k :: ts →
    ∃ t u, step s = .next t ∧ runCommand Config.policy w s = .next u ∧ t.acc = u.acc ∧ t.rsp = u.rsp ∧
      t.hosts[k]? = some (HostAgent.mk .ready cs (a.returned ++ [.response u.rsp])) ∧
      t.commands = s.commands ∧ t.transport = s.transport ∧ t.turns = ts

/-- R18, R44, R120, R128: a step issues at most one transport call, only a host's procedure issues one, and it is the call the
rules give that host at that point, of one whole register. That a step holds at most one call is log entry 16 (DEDUCED). -/
def Obligations.EveryTransportCallIsAProcedures : Prop :=
  ∀ (p : Policy) (s t : State), HostsInv s → stepUnder p s = .next t →
    t.transport = s.transport ∨
    ∃ a ∈ s.hosts, ∃ e, t.transport = s.transport.record e ∧ CallOf a e

/-- R33, R54: a turn of one host touches no other host; nor any presented word or turn to come, which are the model's own (DESIGN
CHOICE, log entries 1 and 12). -/
def Obligations.HostTurnLeavesOtherHosts : Prop :=
  ∀ (p : Policy) (s t : State) (k : Nat) (ts : List Turn), s.turns = .host k :: ts → stepUnder p s = .next t →
    t.hosts.length = s.hosts.length ∧ (∀ j, j ≠ k → t.hosts[j]? = s.hosts[j]?) ∧
    t.commands = s.commands ∧ t.turns = ts

/-- R129: a PEC-enabled transport appends PEC_WRITE_WORD's byte to a word write, and its check of a word read is
PEC_READ_WORD_TEST's result; a transport that does not use the PEC does neither. -/
def Obligations.TransportUsesThePecOperations : Prop :=
  ∀ (a : BusAddr) (c : Byte) (d : Half) (r : Reply) (s : State),
    (∃ e : Byte, writePecSent true a c d = some e ∧ resultOf (.pecWriteWord a c d) s = some (e.setWidth 16)) ∧
    (r.status = 0 → readPecTest true a c r = resultOf (.pecReadWordTest a c r.data r.pec) s) ∧
    (r.status ≠ 0 → readPecTest true a c r = none) ∧
    writePecSent false a c d = none ∧ readPecTest false a c r = none

/-- R51, R54 (K9): the lost update is admitted. On a plain-storage register two hosts' WRITE_FIELDs to different fields of one
register can interleave so that both return 0 and the register ends without the first one's change. -/
def Obligations.LostUpdateIsAdmitted : Prop :=
  ∃ (s t : State) (n : Nat) (h : Handle) (tagA tagB valueA valueB first : Half),
    s.transport.log = [] ∧ s.hosts = [{ phase := .ready, calls := [.writeField h tagA valueA], returned := [] },
      { phase := .ready, calls := [.writeField h tagB valueB], returned := [] }] ∧
    ValidTag tagA ∧ ValidTag tagB ∧ tagSub tagA = tagSub tagB ∧
    (tagOffset tagA + tagSize tagA ≤ tagOffset tagB) ∧
    core.run n s = .next t ∧ t.hosts.map (·.returned) = [[.writeField 0], [.writeField 0]] ∧
    plainStorage first t.transport.log ∧
    ∃ final, lastWritten h.addr (BitVec.ofNat 8 (tagSub tagA)) first t.transport.log = final ∧
      extractField tagA final = extractField tagA first ∧
      extractField tagA (mergeField tagA first valueA) ≠ extractField tagA first

/-- R174 (K10): hosts that interleave ACC sequences spoil them. Two hosts, each with ACC_CLEAR and the ACC_UPDATEs of its frame,
can run, with no word presented and no turn but hosts' turns, so that ACC ends as the PEC of neither frame. Were the sequences
not interleaved, ACC would end as the PEC of the later one. -/
def Obligations.InterleavedAccSequencesSpoilThePec : Prop :=
  ∃ (s t : State) (n : Nat) (frameA frameB : List Byte),
    s.hosts = [{ phase := .ready, calls := (encode .accClear :: updateWords frameA).map .command, returned := [] },
      { phase := .ready, calls := (encode .accClear :: updateWords frameB).map .command, returned := [] }] ∧
    s.commands = [] ∧ (∀ x ∈ s.turns, ∃ k, x = .host k) ∧
    core.run n s = .next t ∧ (∀ a ∈ t.hosts, a.calls = []) ∧ t.acc ≠ pecOf frameA ∧ t.acc ≠ pecOf frameB
end

