-- ==== Sys2Proof/Laws/Command.lean ====
section
/-! SUPPORT. The fields of a packed command word (30_encoding.md R62, R63), and the opcode map both ways (R72, R73). -/

namespace Sys2Proof

variable (op : BitVec 5) (s1 s2 s3 : Half) (s4 : Byte)

@[simp] theorem opField_packCommand : opField (packCommand op s1 s2 s3 s4) = op := by
  apply BitVec.eq_of_getLsbD_eq
  intro i hi
  have h1 : i < 64 := by omega
  have h2 : i < 56 := by omega
  have h3 : i < 40 := by omega
  have h4 : i < 24 := by omega
  have h5 : i < 8 := by omega
  simp [opField, packCommand, hi, h1, h2, h3, h4, h5]

@[simp] theorem rsvField_packCommand : rsvField (packCommand op s1 s2 s3 s4) = 0#3 := by
  apply BitVec.eq_of_getLsbD_eq
  intro i hi
  have h1 : 5 + i < 64 := by omega
  have h2 : 5 + i < 56 := by omega
  have h3 : 5 + i < 40 := by omega
  have h4 : 5 + i < 24 := by omega
  have h5 : 5 + i < 8 := by omega
  simp [rsvField, packCommand, hi, h1, h2, h3, h4, h5]

@[simp] theorem slot1_packCommand : slot1 (packCommand op s1 s2 s3 s4) = s1 := by
  apply BitVec.eq_of_getLsbD_eq
  intro i hi
  have h1 : 8 + i < 64 := by omega
  have h2 : 8 + i < 56 := by omega
  have h3 : 8 + i < 40 := by omega
  have h4 : 8 + i < 24 := by omega
  have h5 : 5 ≤ 8 + i := by omega
  simp [slot1, packCommand, hi, h1, h2, h3, h4, BitVec.getLsbD_of_ge _ _ h5]

@[simp] theorem slot2_packCommand : slot2 (packCommand op s1 s2 s3 s4) = s2 := by
  apply BitVec.eq_of_getLsbD_eq
  intro i hi
  have h1 : 24 + i < 64 := by omega
  have h2 : 24 + i < 56 := by omega
  have h3 : 24 + i < 40 := by omega
  have h5 : 5 ≤ 24 + i := by omega
  have h6 : 16 ≤ 24 + i - 8 := by omega
  simp [slot2, packCommand, hi, h1, h2, h3, BitVec.getLsbD_of_ge _ _ h5, BitVec.getLsbD_of_ge _ _ h6]

@[simp] theorem slot3_packCommand : slot3 (packCommand op s1 s2 s3 s4) = s3 := by
  apply BitVec.eq_of_getLsbD_eq
  intro i hi
  have h1 : 40 + i < 64 := by omega
  have h2 : 40 + i < 56 := by omega
  have h5 : 5 ≤ 40 + i := by omega
  have h6 : 16 ≤ 40 + i - 8 := by omega
  have h7 : 16 ≤ 40 + i - 24 := by omega
  simp [slot3, packCommand, hi, h1, h2, BitVec.getLsbD_of_ge _ _ h5, BitVec.getLsbD_of_ge _ _ h6,
    BitVec.getLsbD_of_ge _ _ h7]

@[simp] theorem slot4_packCommand : slot4 (packCommand op s1 s2 s3 s4) = s4 := by
  apply BitVec.eq_of_getLsbD_eq
  intro i hi
  have h1 : 56 + i < 64 := by omega
  have h5 : 5 ≤ 56 + i := by omega
  have h6 : 16 ≤ 56 + i - 8 := by omega
  have h7 : 16 ≤ 56 + i - 24 := by omega
  have h8 : 16 ≤ 56 + i - 40 := by omega
  simp [slot4, packCommand, hi, h1, BitVec.getLsbD_of_ge _ _ h5, BitVec.getLsbD_of_ge _ _ h6,
    BitVec.getLsbD_of_ge _ _ h7, BitVec.getLsbD_of_ge _ _ h8]

/-- Two command words with the same fields are the same word: the fields cover all 64 bits. -/
theorem command_ext {w v : Command} (ho : opField w = opField v) (hr : rsvField w = rsvField v)
    (h1 : slot1 w = slot1 v) (h2 : slot2 w = slot2 v) (h3 : slot3 w = slot3 v) (h4 : slot4 w = slot4 v) : w = v := by
  have bit : ∀ {st len : Nat}, w.extractLsb' st len = v.extractLsb' st len → ∀ j, st ≤ j → j < st + len →
      w.getLsbD j = v.getLsbD j := by
    intro st len h j hst hj
    have := congrArg (fun x => BitVec.getLsbD x (j - st)) h
    simpa [show j - st < len by omega, show st + (j - st) = j by omega] using this
  apply BitVec.eq_of_getLsbD_eq
  intro j hj
  rcases Nat.lt_or_ge j 5 with h | h
  · exact bit ho j (by omega) (by omega)
  rcases Nat.lt_or_ge j 8 with h | h
  · exact bit hr j (by omega) (by omega)
  rcases Nat.lt_or_ge j 24 with h | h
  · exact bit h1 j (by omega) (by omega)
  rcases Nat.lt_or_ge j 40 with h | h
  · exact bit h2 j (by omega) (by omega)
  rcases Nat.lt_or_ge j 56 with h | h
  · exact bit h3 j (by omega) (by omega)
  · exact bit h4 j (by omega) (by omega)

/-- A slice of a masked word is the masked slice. -/
theorem extractLsb'_and_mask {n : Nat} (w m : BitVec n) (st len : Nat) :
    (w &&& m).extractLsb' st len = w.extractLsb' st len &&& m.extractLsb' st len := by
  apply BitVec.eq_of_getLsbD_eq
  intro j hj
  simp [hj]

/-- The low `k` bits of a slot, put back, are the slot under the mask of its low `k` bits. -/
theorem setWidth_extractLsb' (x : Half) (k : Nat) :
    (x.extractLsb' 0 k).setWidth 16 = x &&& BitVec.ofNat 16 (2 ^ k - 1) := by
  apply BitVec.eq_of_getLsbD_eq
  intro j hj
  have hm : (BitVec.ofNat 16 (2 ^ k - 1)).getLsbD j = decide (j < k) := by
    rw [BitVec.getLsbD_ofNat, Nat.testBit_two_pow_sub_one]
    simp [hj]
  rw [BitVec.getLsbD_and, hm, BitVec.getLsbD_setWidth, BitVec.getLsbD_extractLsb']
  simp [hj, Bool.and_comm]

/-- Decoding a mnemonic's code gives the mnemonic. -/
@[simp] theorem mnemonicOfCode_code (m : Mnemonic) : mnemonicOfCode m.code = some m := by
  cases m <;> rfl

/-- The codes are distinct, and each decodes to the one mnemonic that has it. -/
theorem code_of_mnemonicOfCode {c : BitVec 5} {m : Mnemonic} (h : mnemonicOfCode c = some m) : m.code = c := by
  revert m
  revert c
  decide +revert

/-- The packed word with its code first and its slots in rising order. -/
theorem packCommand_eq : packCommand op s1 s2 s3 s4 = op.setWidth 64 ||| s1.setWidth 64 <<< 8 ||| s2.setWidth 64 <<< 24
    ||| s3.setWidth 64 <<< 40 ||| s4.setWidth 64 <<< 56 := by
  unfold packCommand
  generalize op.setWidth 64 = a, s1.setWidth 64 <<< 8 = b, s2.setWidth 64 <<< 24 = c, s3.setWidth 64 <<< 40 = d,
    s4.setWidth 64 <<< 56 = e
  ac_rfl

/-- An operand of the format is placed at its bits (R64, R77). -/
theorem placeArg_of_slotOf {m : Mnemonic} {n : OperandName} {slot : OperandSlot} (h : m.slotOf n = some slot) (v : Nat) :
    placeArg m ⟨n, v⟩ = BitVec.ofNat 64 (v % 2 ^ slot.width) <<< slot.lo := by
  simp [placeArg, h]

end Sys2Proof
end

