-- ==== Sys2Proof/Laws/State.lean ====
section
/-! SUPPORT. One lemma per field per update of the state: what each named operation writes and what it leaves. -/

namespace Sys2Proof.Machine

variable (s : State)

@[simp] theorem State.writeAcc_acc (v : Byte) : (s.writeAcc v).acc = v := rfl
@[simp] theorem State.writeAcc_rsp (v : Byte) : (s.writeAcc v).rsp = s.rsp := rfl
@[simp] theorem State.writeAcc_commands (v : Byte) : (s.writeAcc v).commands = s.commands := rfl
@[simp] theorem State.writeAcc_hosts (v : Byte) : (s.writeAcc v).hosts = s.hosts := rfl
@[simp] theorem State.writeAcc_transport (v : Byte) : (s.writeAcc v).transport = s.transport := rfl
@[simp] theorem State.writeAcc_turns (v : Byte) : (s.writeAcc v).turns = s.turns := rfl
@[simp] theorem State.writeAcc_self : s.writeAcc s.acc = s := rfl

@[simp] theorem State.respond_acc (f : Flags) (r : Half) : (s.respond f r).acc = s.acc := rfl
@[simp] theorem State.respond_rsp (f : Flags) (r : Half) : (s.respond f r).rsp = packRsp f s.acc r := rfl
@[simp] theorem State.respond_commands (f : Flags) (r : Half) : (s.respond f r).commands = s.commands := rfl
@[simp] theorem State.respond_hosts (f : Flags) (r : Half) : (s.respond f r).hosts = s.hosts := rfl
@[simp] theorem State.respond_transport (f : Flags) (r : Half) : (s.respond f r).transport = s.transport := rfl
@[simp] theorem State.respond_turns (f : Flags) (r : Half) : (s.respond f r).turns = s.turns := rfl

@[simp] theorem State.reportReserved_acc : s.reportReserved.acc = s.acc := rfl
@[simp] theorem State.reportReserved_rsp : s.reportReserved.rsp = packRsp reservedFlags s.acc 0#16 := rfl
@[simp] theorem State.reportReserved_commands : s.reportReserved.commands = s.commands := rfl
@[simp] theorem State.reportReserved_hosts : s.reportReserved.hosts = s.hosts := rfl
@[simp] theorem State.reportReserved_transport : s.reportReserved.transport = s.transport := rfl
@[simp] theorem State.reportReserved_turns : s.reportReserved.turns = s.turns := rfl

@[simp] theorem State.resetBlock_acc : s.resetBlock.acc = 0#8 := rfl
@[simp] theorem State.resetBlock_rsp : s.resetBlock.rsp = 0#32 := rfl
@[simp] theorem State.resetBlock_commands : s.resetBlock.commands = s.commands := rfl
@[simp] theorem State.resetBlock_hosts : s.resetBlock.hosts = s.hosts := rfl
@[simp] theorem State.resetBlock_transport : s.resetBlock.transport = s.transport := rfl
@[simp] theorem State.resetBlock_turns : s.resetBlock.turns = s.turns := rfl

@[simp] theorem State.setHost_acc (k : Nat) (a : HostAgent) : (s.setHost k a).acc = s.acc := rfl
@[simp] theorem State.setHost_rsp (k : Nat) (a : HostAgent) : (s.setHost k a).rsp = s.rsp := rfl
@[simp] theorem State.setHost_commands (k : Nat) (a : HostAgent) : (s.setHost k a).commands = s.commands := rfl
@[simp] theorem State.setHost_hosts (k : Nat) (a : HostAgent) : (s.setHost k a).hosts = s.hosts.set k a := rfl
@[simp] theorem State.setHost_transport (k : Nat) (a : HostAgent) : (s.setHost k a).transport = s.transport := rfl
@[simp] theorem State.setHost_turns (k : Nat) (a : HostAgent) : (s.setHost k a).turns = s.turns := rfl

variable (h : Handle) (c : Byte) (d : Half)

@[simp] theorem State.transportRead_acc : (s.transportRead h c).acc = s.acc := rfl
@[simp] theorem State.transportRead_rsp : (s.transportRead h c).rsp = s.rsp := rfl
@[simp] theorem State.transportRead_commands : (s.transportRead h c).commands = s.commands := rfl
@[simp] theorem State.transportRead_hosts : (s.transportRead h c).hosts = s.hosts := rfl
@[simp] theorem State.transportRead_turns : (s.transportRead h c).turns = s.turns := rfl
@[simp] theorem State.transportRead_log :
    (s.transportRead h c).transport.log = s.transport.log ++ [readEvent s.transport h c] := rfl
@[simp] theorem State.transportRead_replies : (s.transportRead h c).transport.replies = s.transport.replies.tail := rfl
@[simp] theorem State.transportRead_pecEnabled :
    (s.transportRead h c).transport.pecEnabled = s.transport.pecEnabled := rfl

@[simp] theorem State.transportWrite_acc : (s.transportWrite h c d).acc = s.acc := rfl
@[simp] theorem State.transportWrite_rsp : (s.transportWrite h c d).rsp = s.rsp := rfl
@[simp] theorem State.transportWrite_commands : (s.transportWrite h c d).commands = s.commands := rfl
@[simp] theorem State.transportWrite_hosts : (s.transportWrite h c d).hosts = s.hosts := rfl
@[simp] theorem State.transportWrite_turns : (s.transportWrite h c d).turns = s.turns := rfl
@[simp] theorem State.transportWrite_log :
    (s.transportWrite h c d).transport.log = s.transport.log ++ [writeEvent s.transport h c d] := rfl
@[simp] theorem State.transportWrite_replies :
    (s.transportWrite h c d).transport.replies = s.transport.replies.tail := rfl
@[simp] theorem State.transportWrite_pecEnabled :
    (s.transportWrite h c d).transport.pecEnabled = s.transport.pecEnabled := rfl

variable (a : HostAgent)

@[simp] theorem HostAgent.finish_phase (r : Returned) : (a.finish r).phase = .ready := rfl
@[simp] theorem HostAgent.finish_calls (r : Returned) : (a.finish r).calls = a.calls := rfl
@[simp] theorem HostAgent.finish_returned (r : Returned) : (a.finish r).returned = a.returned ++ [r] := rfl
@[simp] theorem HostAgent.goTo_phase (p : Phase) : (a.goTo p).phase = p := rfl
@[simp] theorem HostAgent.goTo_calls (p : Phase) : (a.goTo p).calls = a.calls := rfl
@[simp] theorem HostAgent.goTo_returned (p : Phase) : (a.goTo p).returned = a.returned := rfl
@[simp] theorem HostAgent.begin_phase (cs : List HostCall) (p : Phase) : (a.begin cs p).phase = p := rfl
@[simp] theorem HostAgent.begin_calls (cs : List HostCall) (p : Phase) : (a.begin cs p).calls = cs := rfl
@[simp] theorem HostAgent.begin_returned (cs : List HostCall) (p : Phase) : (a.begin cs p).returned = a.returned := rfl

@[simp] theorem andThen_next (t : State) (f : State → Result) : andThen (.next t) f = f t := rfl
@[simp] theorem andThen_fault (e : Fault) (f : State → Result) : andThen (.fault e) f = .fault e := rfl
@[simp] theorem andThen_refused (e : Refusal) (f : State → Result) : andThen (.refused e) f = .refused e := rfl

/-- `andThen` completes exactly when both parts do. -/
theorem andThen_eq_next {r : Result} {f : State → Result} {t : State} :
    andThen r f = .next t ↔ ∃ u, r = .next u ∧ f u = .next t := by
  cases r <;> simp

end Sys2Proof.Machine
end

