-- ==== Sys2Proof/Laws/Response.lean ====
section
/-! SUPPORT. Reading a field of a packed response word gives what was packed (10_state.md R27). -/

namespace Sys2Proof.Machine

variable (f : Flags) (a : Byte) (r : Half)

@[simp] theorem rspResult_packRsp : rspResult (packRsp f a r) = r := by
  apply BitVec.eq_of_getLsbD_eq
  intro i hi
  have h1 : i < 32 := by omega
  have h2 : i < 24 := by omega
  have h3 : i < 25 := by omega
  have h4 : i < 26 := by omega
  simp [rspResult, packRsp, hi, h1, h2, h3, h4]

@[simp] theorem rspAccOut_packRsp : rspAccOut (packRsp f a r) = a := by
  apply BitVec.eq_of_getLsbD_eq
  intro i hi
  have h1 : 16 + i < 32 := by omega
  have h2 : 16 + i < 24 := by omega
  have h3 : 16 + i < 25 := by omega
  have h4 : 16 + i < 26 := by omega
  simp [rspAccOut, packRsp, hi, h1, h2, h3, h4]

@[simp] theorem rspWhole_packRsp : rspWhole (packRsp f a r) = f.whole := by
  simp [rspWhole, packRsp]

@[simp] theorem rspDescErr_packRsp : rspDescErr (packRsp f a r) = f.descErr := by
  simp [rspDescErr, packRsp, BitVec.getLsbD_of_ge]

@[simp] theorem rspOpErr_packRsp : rspOpErr (packRsp f a r) = f.opErr := by
  simp [rspOpErr, packRsp, BitVec.getLsbD_of_ge]

@[simp] theorem rspReserved_packRsp : rspReserved (packRsp f a r) = 0#5 := by
  apply BitVec.eq_of_getLsbD_eq
  intro i hi
  have h1 : 27 + i < 32 := by omega
  have h2 : 16 ≤ 27 + i := by omega
  have h3 : 8 ≤ 27 + i - 16 := by omega
  simp [rspReserved, packRsp, hi, h1, BitVec.getLsbD_of_ge _ _ h2, BitVec.getLsbD_of_ge _ _ h3]
  omega

end Sys2Proof.Machine
end

