-- ==== Sys2Proof/Laws/Exec.lean ====
section
/-! SUPPORT. What executing a command can do, said once: it answers, it may write ACC (two commands), and it changes
nothing else (10_state.md R23, R25, R28). -/

namespace Sys2Proof.Machine

/-- Every command completes: it writes ACC (the old value but for ACC_CLEAR and ACC_UPDATE) and answers with `OP_ERR` 0. -/
theorem exec_completes (i : Instr) (s : State) :
    ∃ v f r, exec i s = .next ((s.writeAcc v).respond f r) ∧ f.opErr = false ∧
      (i ≠ .accClear → (∀ d, i ≠ .accUpdate d) → v = s.acc) := by
  cases i
  case accClear => exact ⟨_, _, _, rfl, rfl, fun h => absurd rfl h⟩
  case accUpdate d => exact ⟨_, _, _, rfl, rfl, fun _ h => absurd rfl (h d)⟩
  all_goals exact ⟨s.acc, _, _, rfl, rfl, fun _ _ => rfl⟩

/-- Under `compute` the descriptor check lets every step through. -/
@[simp] theorem checkDescriptor_compute (w : Command) (t : State) : checkDescriptor .compute w t = .next t := rfl

/-- The word of a command executed under `compute` is the command's own meaning. -/
theorem runCommand_command {r : ReservedPolicy} {w : Command} {i : Instr} (h : decode w = .command i) (s : State) :
    runCommand { reserved := r, descriptor := .compute } w s = exec i s := by
  obtain ⟨v, f, x, hx, -⟩ := exec_completes i s
  simp [runCommand, h, hx]

/-- A reserved word under `report` reports. -/
theorem runCommand_reserved {d : DescriptorPolicy} {w : Command} {y : ReservedWhy} (h : decode w = .reserved y)
    (s : State) : runCommand { reserved := .report, descriptor := d } w s = .next s.reportReserved := by
  simp [runCommand, runReserved, h]

/-- Whatever the policy, an executed word that completes writes ACC and the response port alone. -/
theorem runCommand_next {p : Policy} {w : Command} {s t : State} (h : runCommand p w s = .next t) :
    ∃ v f r, t = (s.writeAcc v).respond f r ∧
      (f.opErr = true → r = 0#16 ∧ f.whole = false ∧ f.descErr = false) ∧
      (decode w ≠ .command .accClear → (∀ d, decode w ≠ .command (.accUpdate d)) → v = s.acc) := by
  cases hd : decode w with
  | command i =>
    obtain ⟨v, f, r, hx, hf, hv⟩ := exec_completes i s
    refine ⟨v, f, r, ?_, by simp [hf], fun h1 h2 => hv (by simpa using h1) (by simpa using h2)⟩
    obtain ⟨q, pd⟩ := p
    cases pd
    · simpa [runCommand, hd, hx, eq_comm] using h
    · simp only [runCommand, hd, hx, andThen_next, checkDescriptor] at h
      split at h
      · cases h
      · simpa [eq_comm] using h
  | reserved y =>
    obtain ⟨q, pd⟩ := p
    cases q
    · refine ⟨s.acc, reservedFlags, 0#16, ?_, by simp [reservedFlags], fun _ _ => rfl⟩
      simpa [runCommand, runReserved, hd, State.reportReserved, eq_comm] using h
    · simp [runCommand, runReserved, hd] at h

/-- Under the machine's own policy every word completes (60_exceptions.md R166). -/
theorem runCommand_completes (w : Command) (s : State) : ∃ t, runCommand Config.policy w s = .next t := by
  cases hd : decode w with
  | command i =>
    obtain ⟨v, f, r, hx, -⟩ := exec_completes i s
    exact ⟨_, (runCommand_command hd s).trans hx⟩
  | reserved y => exact ⟨_, runCommand_reserved hd s⟩

end Sys2Proof.Machine
end

