-- ==== Sys2Proof/Laws/Operands.lean ====
section
/-! SUPPORT. The tag's fields as plain numbers (30_encoding.md R67), the mask bit by bit (40_descriptor.md R96), and the flags of
a tag (10_state.md R29, R30). -/

namespace Sys2Proof.Machine

open Sys2Proof.Safety

theorem off_toNat (t : Half) : (off t).toNat = tagOffset t := by
  have := t.isLt
  simp [off, tagOffset, BitVec.extractLsb'_toNat, Nat.shiftRight_eq_div_pow]
  omega

theorem sz_toNat (t : Half) : (sz t).toNat = tagSize t := by
  simp [sz, tagSize, BitVec.extractLsb'_toNat, Nat.shiftRight_eq_div_pow]
  omega

theorem sub_toNat (t : Half) : (sub t).toNat = tagSub t := by
  simp [sub, tagSub, BitVec.extractLsb'_toNat]

theorem sub_eq_ofNat (t : Half) : sub t = BitVec.ofNat 8 (tagSub t) := by
  apply BitVec.eq_of_toNat_eq
  rw [sub_toNat, BitVec.toNat_ofNat, Nat.mod_eq_of_lt]
  exact Nat.mod_lt _ (by decide)

theorem tagOffset_lt (t : Half) : tagOffset t < 16 := by
  have := t.isLt
  unfold tagOffset
  omega

theorem tagSize_pos (t : Half) : 1 ≤ tagSize t := by
  unfold tagSize
  omega

theorem tagSize_le (t : Half) : tagSize t ≤ 16 := by
  unfold tagSize
  omega

/-- `SZ(t) == 16`, at the width R67 gives it and as a number. -/
theorem sz_eq_sixteen (t : Half) : sz t = 16#5 ↔ tagSize t = 16 := by
  rw [← sz_toNat, ← BitVec.toNat_inj]
  rfl

@[simp] theorem tagFlags_whole (t : Half) : (tagFlags t).whole = decide (tagSize t = 16) := by
  simp [tagFlags, sz_toNat]

@[simp] theorem tagFlags_descErr (t : Half) : (tagFlags t).descErr = decide (tagOffset t + tagSize t > 16) := by
  simp [tagFlags, sz_toNat, off_toNat]

@[simp] theorem tagFlags_opErr (t : Half) : (tagFlags t).opErr = false := rfl

/-- Bit `i` after `n` rounds: some bit of the start at most `n` places below it. -/
theorem getLsbD_maskRounds (n : Nat) (m : Half) (i : Nat) (hi : i < 16) :
    (maskRounds n m).getLsbD i = true ↔ ∃ k ≤ n, k ≤ i ∧ m.getLsbD (i - k) = true := by
  induction n generalizing m with
  | zero => simp [maskRounds]
  | succ n ih =>
    rw [maskRounds, ih]
    constructor
    · rintro ⟨k, hk, hki, h⟩
      simp only [BitVec.getLsbD_or, BitVec.getLsbD_shiftLeft, Bool.or_eq_true, Bool.and_eq_true,
        decide_eq_true_eq, Bool.not_eq_true', decide_eq_false_iff_not] at h
      rcases h with h | ⟨⟨-, h1⟩, h2⟩
      · exact ⟨k, by omega, hki, h⟩
      · exact ⟨k + 1, by omega, by omega, by rwa [Nat.sub_add_eq]⟩
    · rintro ⟨k, hk, hki, h⟩
      simp only [BitVec.getLsbD_or, BitVec.getLsbD_shiftLeft, Bool.or_eq_true, Bool.and_eq_true,
        decide_eq_true_eq, Bool.not_eq_true', decide_eq_false_iff_not]
      rcases Nat.eq_zero_or_pos k with rfl | hp
      · exact ⟨0, by omega, by omega, .inl h⟩
      · refine ⟨k - 1, by omega, by omega, .inr ⟨⟨by omega, by omega⟩, ?_⟩⟩
        rwa [show i - (k - 1) - 1 = i - k by omega]

/-- Bit `i` of the mask is 1 exactly inside the field (R96's closed form). -/
theorem getLsbD_maskOf (t : Half) (i : Nat) (hi : i < 16) :
    (maskOf t).getLsbD i = decide (tagOffset t ≤ i ∧ i < tagOffset t + tagSize t) := by
  rw [Bool.eq_iff_iff, maskOf, getLsbD_maskRounds _ _ _ hi, sz_toNat, off_toNat]
  have := tagSize_pos t
  simp only [BitVec.getLsbD_shiftLeft, Bool.and_eq_true, decide_eq_true_eq, Bool.not_eq_true',
    decide_eq_false_iff_not, BitVec.getLsbD_one]
  constructor
  · rintro ⟨k, hk, hki, ⟨-, h1⟩, -, h2⟩
    omega
  · rintro ⟨h1, h2⟩
    exact ⟨i - tagOffset t, by omega, by omega, ⟨by omega, by omega⟩, by omega, by omega⟩

end Sys2Proof.Machine
end

