-- ==== Sys2Proof/Laws/Step.lean ====
section
/-! SUPPORT. The step by whose turn it is, and what a host's transport read can do. -/

namespace Sys2Proof.Machine

/-- With a turn listed, the step is that turn. -/
theorem stepUnder_turn {p : Policy} {s : State} {t : Turn} {ts : List Turn} (h : s.turns = t :: ts) :
    stepUnder p s = runTurn p t { s with turns := ts } := by
  simp [stepUnder, runNext, h]

/-- With none listed, it is the default turn. -/
theorem stepUnder_noTurn {p : Policy} {s : State} (h : s.turns = []) :
    stepUnder p s = runTurn p (defaultTurn s) s := by
  simp [stepUnder, runNext, h]

/-- With none listed and a word presented, it is the block's turn. -/
theorem defaultTurn_command {s : State} {w : Command} {ws : List Command} (h : s.commands = w :: ws) :
    defaultTurn s = .command := by
  simp [defaultTurn, h]

/-- The block's turn executes the next word. -/
theorem commandTurn_cons {p : Policy} {s : State} {w : Command} {ws : List Command} (h : s.commands = w :: ws) :
    commandTurn p s = runCommand p w { s with commands := ws } := by
  simp [commandTurn, h]

/-- A listed turn of the block executes the next word. -/
theorem stepUnder_command {p : Policy} {s : State} {w : Command} {ws : List Command} {ts : List Turn}
    (hc : s.commands = w :: ws) (ht : s.turns = .command :: ts) :
    stepUnder p s = runCommand p w { s with commands := ws, turns := ts } := by
  rw [stepUnder_turn ht, runTurn, commandTurn_cons (w := w) (ws := ws) (by exact hc)]

/-- With no turn listed, a presented word is executed. -/
theorem stepUnder_presented {p : Policy} {s : State} {w : Command} {ws : List Command} (hc : s.commands = w :: ws)
    (ht : s.turns = []) : stepUnder p s = runCommand p w { s with commands := ws } := by
  rw [stepUnder_noTurn ht, defaultTurn_command hc, runTurn, commandTurn_cons hc]

/-- A listed turn of host `k` is its move. -/
theorem stepUnder_host {p : Policy} {s : State} {k : Nat} {a : HostAgent} {ts : List Turn}
    (ha : s.hosts[k]? = some a) (ht : s.turns = .host k :: ts) :
    stepUnder p s = moveHost p k a { s with turns := ts } := by
  rw [stepUnder_turn ht, runTurn, hostTurn]
  simp only [ha]

/-- A read with status 0 carries its data; a failed one carries none (41_field_access.md R119). -/
theorem readData_eq (r : Reply) :
    (r.status = 0 → r.readData = some r.data) ∧ (r.status ≠ 0 → r.readData = none) := by
  constructor <;> intro h <;> simp [Reply.readData, h]

/-- A procedure's read always completes: it ends the procedure with the failure's status, or goes on with the data. -/
theorem readAndContinue_cases (k : Nat) (a : HostAgent) (h : Handle) (c : Byte) (failed : Status → Returned)
    (nxt : Half → Phase) (s : State) :
    (s.transport.reply.status ≠ 0 ∧ readAndContinue k a h c failed nxt s =
      .next ((s.transportRead h c).setHost k (a.finish (failed s.transport.reply.status)))) ∨
    (s.transport.reply.status = 0 ∧ readAndContinue k a h c failed nxt s =
      .next ((s.transportRead h c).setHost k (a.goTo (nxt s.transport.reply.data)))) := by
  by_cases hs : s.transport.reply.status = 0
  · exact .inr ⟨hs, by simp [readAndContinue, hs, useReadData, Reply.readData]⟩
  · exact .inl ⟨hs, by simp [readAndContinue, hs]⟩

/-- A run whose first step completes goes on from the next state. -/
theorem run_succ {s t : State} (n : Nat) (h : step s = .next t) :
    Sys2Proof.core.run (n + 1) s = Sys2Proof.core.run n t := by
  have h' : Sys2Proof.core.step s = .next t := h
  simp only [Host.Core.run, h']

@[simp] theorem run_zero (s : State) : Sys2Proof.core.run 0 s = .next s := rfl

end Sys2Proof.Machine
end

