-- ==== Sys2Proof/Laws/HostProtocol.lean ====
section
/-! SUPPORT. What one move of a host does, phase by phase, under the machine's own policy (41_field_access.md R121 to
R124), and what any move leaves alone. -/

namespace Sys2Proof.Machine

open Sys2Proof.Safety

/-! ### The three commands a procedure issues -/

theorem decode_encode_decSubaddr (tag : Half) : decode (encode (.decSubaddr tag)) = .command (.decSubaddr tag) := by
  simp [decode, encode, operandSlots, Instr.mnemonic, readOperands]

theorem decode_encode_fieldMerge (tag r v : Half) :
    decode (encode (.fieldMerge tag r v)) = .command (.fieldMerge tag r v) := by
  simp [decode, encode, operandSlots, Instr.mnemonic, readOperands]

theorem decode_encode_fieldExtract (tag r : Half) :
    decode (encode (.fieldExtract tag r)) = .command (.fieldExtract tag r) := by
  simp [decode, encode, operandSlots, Instr.mnemonic, readOperands]

/-- Whatever the policy, a command word that completes did what its instruction's meaning does. -/
theorem exec_of_runCommand {p : Policy} {w : Command} {i : Instr} {s t : State} (hd : decode w = .command i)
    (h : runCommand p w s = .next t) : exec i s = .next t := by
  obtain ⟨v, f, r, hx, -⟩ := exec_completes i s
  simp only [runCommand, hd, hx, andThen_next] at h
  obtain ⟨q, d⟩ := p
  cases d
  · simpa [hx] using h
  · simp only [checkDescriptor] at h
    split at h
    · cases h
    · rw [hx, h]

@[simp] theorem lowByte_sub (tag : Half) : lowByte ((sub tag).setWidth 16) = sub tag := by
  apply BitVec.eq_of_toNat_eq
  have := (sub tag).isLt
  simp [lowByte, BitVec.extractLsb'_toNat]
  omega

theorem issue_decSubaddr (tag : Half) (s : State) :
    issue Config.policy (.decSubaddr tag) s = .next (s.respond (tagFlags tag) ((sub tag).setWidth 16)) :=
  runCommand_command (decode_encode_decSubaddr tag) s

theorem issue_fieldMerge (tag r v : Half) (s : State) :
    issue Config.policy (.fieldMerge tag r v) s = .next (s.respond (tagFlags tag) (mergeField tag r v)) :=
  runCommand_command (decode_encode_fieldMerge tag r v) s

theorem issue_fieldExtract (tag r : Half) (s : State) :
    issue Config.policy (.fieldExtract tag r) s = .next (s.respond (tagFlags tag) (extractField tag r)) :=
  runCommand_command (decode_encode_fieldExtract tag r) s

/-! ### A host's turn, phase by phase -/

/-- The host that has moved is found where it was. -/
theorem getElem?_set_host {l : List HostAgent} {k : Nat} {a : HostAgent} (ha : l[k]? = some a) (b : HostAgent) :
    (l.set k b)[k]? = some b := by
  have hk : k < l.length := (List.getElem?_eq_some_iff.1 ha).1
  simp [hk]

section turns

variable {s : State} {k : Nat} {a : HostAgent} {h : Handle} {tag value : Half} {cmd : Byte} {cs : List HostCall}
  {ts : List Turn}

/-- WRITE_FIELD begins on a whole-register field (R121). -/
theorem step_begin_writeField_whole (ha : s.hosts[k]? = some a) (ht : s.turns = .host k :: ts) (hp : a.phase = .ready)
    (hc : a.calls = .writeField h tag value :: cs) (hz : tagSize tag = 16) :
    step s = .next ((({ s with turns := ts }).respond (tagFlags tag) ((sub tag).setWidth 16)).setHost k
      (a.begin cs (.writeDirect h tag value (sub tag)))) := by
  rw [step, stepUnder_host ha ht, moveHost]
  simp [hp, beginCall, hc, issue_decSubaddr, hz]

/-- WRITE_FIELD begins on a smaller field (R122). -/
theorem step_begin_writeField_part (ha : s.hosts[k]? = some a) (ht : s.turns = .host k :: ts) (hp : a.phase = .ready)
    (hc : a.calls = .writeField h tag value :: cs) (hz : tagSize tag < 16) :
    step s = .next ((({ s with turns := ts }).respond (tagFlags tag) ((sub tag).setWidth 16)).setHost k
      (a.begin cs (.writeFetch h tag value (sub tag)))) := by
  rw [step, stepUnder_host ha ht, moveHost]
  simp [hp, beginCall, hc, issue_decSubaddr, Nat.ne_of_lt hz]

/-- READ_FIELD begins (R124). -/
theorem step_begin_readField (ha : s.hosts[k]? = some a) (ht : s.turns = .host k :: ts) (hp : a.phase = .ready)
    (hc : a.calls = .readField h tag :: cs) :
    step s = .next ((({ s with turns := ts }).respond (tagFlags tag) ((sub tag).setWidth 16)).setHost k
      (a.begin cs (.readFetch h tag (sub tag)))) := by
  rw [step, stepUnder_host ha ht, moveHost]
  simp [hp, beginCall, hc, issue_decSubaddr]

/-- The write of the whole-register path (R121). -/
theorem step_writeDirect (ha : s.hosts[k]? = some a) (ht : s.turns = .host k :: ts)
    (hp : a.phase = .writeDirect h tag value cmd) :
    step s = .next ((({ s with turns := ts }).transportWrite h cmd value).setHost k
      (a.finish (.writeField s.transport.reply.status))) := by
  rw [step, stepUnder_host ha ht, moveHost]
  simp [hp, writeAndReturn]

/-- The read of the read-modify-write path succeeds (R122). -/
theorem step_writeFetch_ok (ha : s.hosts[k]? = some a) (ht : s.turns = .host k :: ts)
    (hp : a.phase = .writeFetch h tag value cmd) (hs : s.transport.reply.status = 0) :
    step s = .next ((({ s with turns := ts }).transportRead h cmd).setHost k
      (a.goTo (.writeMerge h tag value cmd s.transport.reply.data))) := by
  rw [step, stepUnder_host ha ht, moveHost]
  simp [hp, readAndContinue, hs, useReadData, Reply.readData]

/-- The read of the read-modify-write path fails (R123). -/
theorem step_writeFetch_failed (ha : s.hosts[k]? = some a) (ht : s.turns = .host k :: ts)
    (hp : a.phase = .writeFetch h tag value cmd) (hs : s.transport.reply.status ≠ 0) :
    step s = .next ((({ s with turns := ts }).transportRead h cmd).setHost k
      (a.finish (.writeField s.transport.reply.status))) := by
  rw [step, stepUnder_host ha ht, moveHost]
  simp [hp, readAndContinue, hs]

/-- The merge (R122). -/
theorem step_writeMerge {old : Half} (ha : s.hosts[k]? = some a) (ht : s.turns = .host k :: ts)
    (hp : a.phase = .writeMerge h tag value cmd old) :
    step s = .next ((({ s with turns := ts }).respond (tagFlags tag) (mergeField tag old value)).setHost k
      (a.goTo (.writeBack h tag value cmd old (mergeField tag old value)))) := by
  rw [step, stepUnder_host ha ht, moveHost]
  simp [hp, issue_fieldMerge]

/-- The write of the merged word (R122). -/
theorem step_writeBack {old word : Half} (ha : s.hosts[k]? = some a) (ht : s.turns = .host k :: ts)
    (hp : a.phase = .writeBack h tag value cmd old word) :
    step s = .next ((({ s with turns := ts }).transportWrite h cmd word).setHost k
      (a.finish (.writeField s.transport.reply.status))) := by
  rw [step, stepUnder_host ha ht, moveHost]
  simp [hp, writeAndReturn]

/-- The read of READ_FIELD succeeds (R124). -/
theorem step_readFetch_ok (ha : s.hosts[k]? = some a) (ht : s.turns = .host k :: ts)
    (hp : a.phase = .readFetch h tag cmd) (hs : s.transport.reply.status = 0) :
    step s = .next ((({ s with turns := ts }).transportRead h cmd).setHost k
      (a.goTo (.readExtract h tag cmd s.transport.reply.data))) := by
  rw [step, stepUnder_host ha ht, moveHost]
  simp [hp, readAndContinue, hs, useReadData, Reply.readData]

/-- The read of READ_FIELD fails (R124). -/
theorem step_readFetch_failed (ha : s.hosts[k]? = some a) (ht : s.turns = .host k :: ts)
    (hp : a.phase = .readFetch h tag cmd) (hs : s.transport.reply.status ≠ 0) :
    step s = .next ((({ s with turns := ts }).transportRead h cmd).setHost k
      (a.finish (.readField none s.transport.reply.status))) := by
  rw [step, stepUnder_host ha ht, moveHost]
  simp [hp, readAndContinue, hs]

/-- The extract (R124). -/
theorem step_readExtract {raw : Half} (ha : s.hosts[k]? = some a) (ht : s.turns = .host k :: ts)
    (hp : a.phase = .readExtract h tag cmd raw) :
    step s = .next ((({ s with turns := ts }).respond (tagFlags tag) (extractField tag raw)).setHost k
      (a.finish (.readField (some (extractField tag raw)) 0))) := by
  rw [step, stepUnder_host ha ht, moveHost]
  simp [hp, issue_fieldExtract]

end turns

/-! ### The word a step executes -/

theorem executedWord_turn {s : State} {t : Turn} {ts : List Turn} (ht : s.turns = t :: ts) :
    executedWord s = wordOfTurn s t := by
  simp [executedWord, ht]

theorem executedWord_noTurn {s : State} (ht : s.turns = []) : executedWord s = wordOfTurn s (defaultTurn s) := by
  simp [executedWord, ht]

end Sys2Proof.Machine
end

