-- ==== Sys2Proof/Laws/PerInstr.lean ====
section
/-! SUPPORT. The family EncodedCode: the word of an instruction holds its operation code in `W[4:0]` and 0 in `W[7:5]`
(30_encoding.md R62, R72). -/

namespace Sys2Proof.Laws.EncodedCode

/-- The encoded word's `OP` is the instruction's code and its `RSV` is 0. -/
def Statement (i : Instr) : Prop := opField (encode i) = i.mnemonic.code ∧ rsvField (encode i) = 0#3

theorem holds (i : Instr) : Statement i := by simp [Statement, encode]

theorem encodeDesc (o : BitVec 4) (z : BitVec 5) (a : Byte) : Statement (.encodeDesc o z a) := holds _
theorem decSubaddr (t : Half) : Statement (.decSubaddr t) := holds _
theorem decSize (t : Half) : Statement (.decSize t) := holds _
theorem decOffset (t : Half) : Statement (.decOffset t) := holds _
theorem mask (t : Half) : Statement (.mask t) := holds _
theorem fieldMerge (t r v : Half) : Statement (.fieldMerge t r v) := holds _
theorem fieldExtract (t r : Half) : Statement (.fieldExtract t r) := holds _
theorem crc8 (d r : Byte) : Statement (.crc8 d r) := holds _
theorem accClear : Statement .accClear := holds _
theorem accUpdate (d : Byte) : Statement (.accUpdate d) := holds _
theorem pecWriteByte (a : BusAddr) (c d : Byte) : Statement (.pecWriteByte a c d) := holds _
theorem pecWriteWord (a : BusAddr) (c : Byte) (d : Half) : Statement (.pecWriteWord a c d) := holds _
theorem pecReadByte (a : BusAddr) (c d : Byte) : Statement (.pecReadByte a c d) := holds _
theorem pecReadWord (a : BusAddr) (c : Byte) (d : Half) : Statement (.pecReadWord a c d) := holds _
theorem pecReadByteTest (a : BusAddr) (c d p : Byte) : Statement (.pecReadByteTest a c d p) := holds _
theorem pecReadWordTest (a : BusAddr) (c : Byte) (d : Half) (p : Byte) : Statement (.pecReadWordTest a c d p) := holds _

end Sys2Proof.Laws.EncodedCode
end

