-- ==== Sys2Proof/Tests/Slice0.lean ====
section
/-! SUPPORT. Tests of one decoding, one assembly or one step each, with expected values from the spec's own tables
(95_test_vectors.md, 30_encoding.md R77 and R79), and the witnesses of the statements' hypotheses. -/

namespace Sys2Proof.Tests

open Sys2Proof.Machine Sys2Proof.Safety

/-! ### Helpers -/

/-- The reset state with another ACC. -/
def withAcc (acc : Byte) : State := { State.reset with acc := acc }

/-- The next state a result holds. -/
def nextOf : Result → Option State
  | .next t => some t
  | _ => none

theorem eq_next_of_nextOf {r : Result} {t : State} (h : nextOf r = some t) : r = .next t := by
  cases r <;> simp [nextOf] at h
  rw [h]

/-- ACC and the response after the word `w` is fetched and executed with ACC at `acc`. -/
def stepWord (acc : Byte) (w : Nat) : Option (Byte × Rsp) :=
  (nextOf (step ((withAcc acc).withFetchWord 64 w))).map fun t => (t.acc, t.rsp)

/-! ### Ill-formed assembler lines, one for each check of WellFormed.lean -/

theorem test_wf_unknown_operand : AsmCommand.wf ⟨.mask, [⟨.value, 1⟩]⟩ = false := by decide
theorem test_wf_too_wide : AsmCommand.wf ⟨.encodeDesc, [⟨.sizeIn, 32⟩]⟩ = false := by decide
theorem test_wf_given_twice : AsmCommand.wf ⟨.mask, [⟨.tag, 1⟩, ⟨.tag, 2⟩]⟩ = false := by decide
theorem test_wf_good : AsmCommand.wf ⟨.encodeDesc, [⟨.sizeIn, 31⟩, ⟨.offsetIn, 15⟩]⟩ = true := by decide
theorem test_assemble_unknown_operand : assemble ⟨.mask, [⟨.value, 1⟩]⟩ = none := by decide
theorem test_assemble_too_wide : assemble ⟨.encodeDesc, [⟨.sizeIn, 32⟩]⟩ = none := by decide
theorem test_assemble_given_twice : assemble ⟨.mask, [⟨.tag, 1⟩, ⟨.tag, 2⟩]⟩ = none := by decide

/-! ### Decoding, by words written out in 95_test_vectors.md, for every command -/

theorem test_decode_ENCODE : decode 0x0000120011000401#64 = .command (.encodeDesc 4#4 17#5 0x12#8) := by decide
theorem test_decode_DEC_SUBADDR : decode 0x0000000000431202#64 = .command (.decSubaddr 0x4312#16) := by decide
theorem test_decode_DEC_SIZE : decode 0x0000000000431203#64 = .command (.decSize 0x4312#16) := by decide
theorem test_decode_DEC_OFFSET : decode 0x0000000000431204#64 = .command (.decOffset 0x4312#16) := by decide
theorem test_decode_MASK : decode 0x00000000004F0005#64 = .command (.mask 0x4F00#16) := by decide
theorem test_decode_FIELD_MERGE :
    decode 0x00BEEF12340FFF06#64 = .command (.fieldMerge 0x0FFF#16 0x1234#16 0xBEEF#16) := by decide
theorem test_decode_FIELD_EXTRACT :
    decode 0x000000ABCDC70007#64 = .command (.fieldExtract 0xC700#16 0xABCD#16) := by decide
theorem test_decode_CRC8 : decode 0x000000003E000708#64 = .command (.crc8 0x07#8 0x3E#8) := by decide
theorem test_decode_ACC_CLEAR : decode 0x0000000000000009#64 = .command .accClear := by decide
theorem test_decode_ACC_UPDATE_dont_care : decode 0x0000000000FF5A0A#64 = .command (.accUpdate 0x5A#8) := by decide
theorem test_decode_PEC_WRITE_BYTE :
    decode 0x0012340007006810#64 = .command (.pecWriteByte 0x68#7 0x07#8 0x34#8) := by decide
theorem test_decode_PEC_WRITE_WORD :
    decode 0x0000A50014000911#64 = .command (.pecWriteWord 0x09#7 0x14#8 0x00A5#16) := by decide
theorem test_decode_PEC_READ_BYTE :
    decode 0x0012340007006812#64 = .command (.pecReadByte 0x68#7 0x07#8 0x34#8) := by decide
theorem test_decode_PEC_READ_WORD_dont_care :
    decode 0x001234000700E813#64 = .command (.pecReadWord 0x68#7 0x07#8 0x1234#16) := by decide
theorem test_decode_PEC_READ_BYTE_TEST :
    decode 0xF8FF340007006814#64 = .command (.pecReadByteTest 0x68#7 0x07#8 0x34#8 0xF8#8) := by decide
theorem test_decode_PEC_READ_WORD_TEST :
    decode 0x9912340007006815#64 = .command (.pecReadWordTest 0x68#7 0x07#8 0x1234#16 0x99#8) := by decide

/-- Vectors X1 to X6. -/
theorem test_decode_reserved :
    decode 0x0000000000000000#64 = .reserved (.opCode 0x00#5) ∧ decode 0x000000000012340B#64 = .reserved (.opCode 0x0B#5) ∧
    decode 0x0000000000000016#64 = .reserved (.opCode 0x16#5) ∧ decode 0x000000000000001F#64 = .reserved (.opCode 0x1F#5) ∧
    decode 0x0000000000431225#64 = .reserved (.rsvBits 1#3) ∧ decode 0x0000000000000089#64 = .reserved (.rsvBits 4#3) := by
  decide

theorem test_decodeTableWord : decodeTableWord 64 0x0000120004000401 = some (.encodeDesc 4#4 4#5 0x12#8) ∧
    decodeTableWord 8 0x09 = some .accClear ∧ decodeTableWord 64 0x0B = none := by decide

/-! ### Assembler text (R77, R79) -/

theorem test_assemble_ENCODE :
    assembleLine "ENCODE offset_in=4, size_in=4, subaddr_in=0x12".toList = some 0x0000120004000401#64 := by decide
theorem test_assemble_FIELD_MERGE :
    assembleLine "FIELD_MERGE tag=0x4312, reg_in=0xF0F0, value=0x000A".toList = some 0x00000AF0F0431206#64 := by decide
theorem test_assemble_order_and_binary :
    assembleLine "FIELD_MERGE value=0b1010, tag=0x4312, reg_in=0xF0F0".toList = some 0x00000AF0F0431206#64 := by decide
theorem test_assemble_PEC_WRITE_WORD :
    assembleLine "PEC_WRITE_WORD addr=0x68, cmd=0x07, data=0x1234".toList = some 0x0012340007006811#64 := by decide
theorem test_assemble_PEC_WRITE_BYTE :
    assembleLine "PEC_WRITE_BYTE addr=0x68, cmd=0x07, data=0x1234".toList = some 0x0012340007006810#64 := by decide
theorem test_assemble_ACC_CLEAR : assembleLine "ACC_CLEAR".toList = some 0x0000000000000009#64 := by decide
theorem test_assemble_omitted :
    assembleLine "ENCODE size_in=16, subaddr_in=0xFF".toList = some 0x0000FF0010000001#64 := by decide
theorem test_assemble_unknown_mnemonic : assembleLine "NOP".toList = none := by decide
theorem test_printWord : printWord 0x00000AF0F0431206#64 = "0x00000AF0F0431206".toList := by decide
theorem test_encode_ENCODE : encode (.encodeDesc 4#4 17#5 0x12#8) = 0x0000120011000401#64 := by decide
theorem test_encode_PEC_READ_WORD_TEST :
    encode (.pecReadWordTest 0x68#7 0x07#8 0x1234#16 0x98#8) = 0x9812340007006815#64 := by decide

/-! ### Each command's response, by the vectors of 95_test_vectors.md -/

theorem test_D7_ENCODE_size_0 : stepWord 0x00#8 0x0000120000000001 = some (0x00#8, 0x02000F12#32) := by decide
theorem test_D10_ENCODE_size_16 : stepWord 0x00#8 0x0000770010000F01 = some (0x00#8, 0x0300FF77#32) := by decide
theorem test_D13_DEC_SUBADDR : stepWord 0x00#8 0x00000000000FFF02 = some (0x00#8, 0x010000FF#32) := by decide
theorem test_D20_DEC_SIZE : stepWord 0x00#8 0x00000000004F0003 = some (0x00#8, 0x03000010#32) := by decide
theorem test_D14_DEC_OFFSET : stepWord 0x00#8 0x0000000000F00004 = some (0x00#8, 0x0000000F#32) := by decide
theorem test_D13_MASK : stepWord 0x00#8 0x00000000000FFF05 = some (0x00#8, 0x0100FFFF#32) := by decide
theorem test_D24_MASK_cut : stepWord 0x00#8 0x0000000000970105 = some (0x00#8, 0x0200FE00#32) := by decide
theorem test_F2_FIELD_MERGE : stepWord 0x00#8 0x0000FAF0F0431206 = some (0x00#8, 0x0000F0A0#32) := by decide
theorem test_F12_FIELD_MERGE_cut : stepWord 0x00#8 0x0000AB0FFFC70006 = some (0x00#8, 0x0200BFFF#32) := by decide
theorem test_F21_FIELD_EXTRACT : stepWord 0x00#8 0x0000000038320007 = some (0x00#8, 0x00000007#32) := by decide
theorem test_F22_FIELD_EXTRACT_raw : stepWord 0x00#8 0x00000012344F0007 = some (0x00#8, 0x03001234#32) := by decide
theorem test_C7_CRC8 : stepWord 0x55#8 0x000000003E000708 = some (0x55#8, 0x005500AF#32) := by decide
theorem test_C10_ACC_CLEAR : stepWord 0xAF#8 0x0000000000000009 = some (0x00#8, 0x00000000#32) := by decide
theorem test_C12_ACC_UPDATE : stepWord 0x3E#8 0x000000000000070A = some (0xAF#8, 0x00AF00AF#32) := by decide
theorem test_C16_ACC_UPDATE : stepWord 0x5A#8 0x0000000000FF5A0A = some (0x00#8, 0x00000000#32) := by decide
theorem test_P1_PEC_WRITE_BYTE : stepWord 0x55#8 0x0012340007006810 = some (0x55#8, 0x005500C8#32) := by decide +kernel
theorem test_P22_PEC_WRITE_WORD : stepWord 0x55#8 0x0000A50014000911 = some (0x55#8, 0x0055001B#32) := by decide +kernel
theorem test_P3_PEC_READ_BYTE : stepWord 0x55#8 0x0012340007006812 = some (0x55#8, 0x005500F8#32) := by decide +kernel
theorem test_P12_PEC_READ_WORD : stepWord 0x55#8 0x00FFFF00FF007F13 = some (0x55#8, 0x00550085#32) := by decide +kernel
theorem test_P17_PEC_READ_BYTE_TEST : stepWord 0x55#8 0xF8FF340007006814 = some (0x55#8, 0x00550000#32) := by decide +kernel
theorem test_P18_PEC_READ_BYTE_TEST : stepWord 0x55#8 0xF900340007006814 = some (0x55#8, 0x00550001#32) := by decide +kernel
theorem test_P13_PEC_READ_WORD_TEST : stepWord 0x55#8 0x9812340007006815 = some (0x55#8, 0x00550000#32) := by decide +kernel
theorem test_P15_PEC_READ_WORD_TEST : stepWord 0x55#8 0x1812340007006815 = some (0x55#8, 0x00550001#32) := by decide +kernel
theorem test_X5_reserved : stepWord 0x3E#8 0x0000000000431225 = some (0x3E#8, 0x043E0000#32) := by decide
theorem test_X6_reserved : stepWord 0x3E#8 0x0000000000000089 = some (0x3E#8, 0x043E0000#32) := by decide

/-- R140: the check value of "123456789". -/
theorem test_check_value :
    pecOf [0x31#8, 0x32#8, 0x33#8, 0x34#8, 0x35#8, 0x36#8, 0x37#8, 0x38#8, 0x39#8] = 0xF4#8 := by decide +kernel

/-- R154. -/
theorem test_fold_D0_07 : pecOf [0xD0#8, 0x07#8] = 0xAF#8 := by decide +kernel

/-! ### The host's moves, by the vectors H1 to H7 -/

/-- The handle of 95_test_vectors.md section 2.6. -/
def h9 : Handle := { addr := 0x09#7, readFn := 0, writeFn := 1, config := 2 }

/-- One host, alone, in the phase `ph` with the calls `cs`, its next turns and the transport's outcomes given. -/
def hostState (ph : Phase) (cs : List HostCall) (n : Nat) (rs : List Reply) : State :=
  { State.reset with
    hosts := [{ phase := ph, calls := cs, returned := [] }]
    transport := { Transport.initial with replies := rs, pecEnabled := true }
    turns := List.replicate n (.host 0) }

/-- The phases, the returned values and the transport calls after one step. -/
def stepHost (s : State) : Option (List Phase × List Returned × List BusEvent) :=
  (nextOf (step s)).map fun t => (t.hosts.map (·.phase), (t.hosts.map (·.returned)).flatten, t.transport.log)

theorem test_H1_begin : stepHost (hostState .ready [.writeField h9 0x4312#16 0x000A#16] 1 []) =
    some ([.writeFetch h9 0x4312#16 0x000A#16 0x12#8], [], []) := by decide

/-- H1's read, whose received PEC is the one R129's example gives. -/
theorem test_H1_read : stepHost (hostState (.writeFetch h9 0x4312#16 0x000A#16 0x12#8) [] 1 [⟨0, 0xF0F0#16, 0x68#8⟩]) =
    some ([.writeMerge h9 0x4312#16 0x000A#16 0x12#8 0xF0F0#16], [],
      [.read 0 0x09#7 0x12#8 2 0 (some 0xF0F0#16) (some 0#16)]) := by decide +kernel

theorem test_H1_merge : stepHost (hostState (.writeMerge h9 0x4312#16 0x000A#16 0x12#8 0xF0F0#16) [] 1 []) =
    some ([.writeBack h9 0x4312#16 0x000A#16 0x12#8 0xF0F0#16 0xF0A0#16], [], []) := by decide

/-- H4's write; the PEC byte is H1's. -/
theorem test_H4_write :
    stepHost (hostState (.writeBack h9 0x4312#16 0x000A#16 0x12#8 0xF0F0#16 0xF0A0#16) [] 1 [⟨7, 0#16, 0#8⟩]) =
    some ([.ready], [.writeField 7], [.write 1 0x09#7 0x12#8 2 0xF0A0#16 7 (some 0xF9#8)]) := by decide +kernel

theorem test_H2_failed_read :
    stepHost (hostState (.writeFetch h9 0x4312#16 0x000A#16 0x12#8) [] 1 [⟨5, 0xF0F0#16, 0#8⟩]) =
    some ([.ready], [.writeField 5], [.read 0 0x09#7 0x12#8 2 5 none none]) := by decide

theorem test_H3_begin : stepHost (hostState .ready [.writeField h9 0x0FFF#16 0xBEEF#16] 1 []) =
    some ([.writeDirect h9 0x0FFF#16 0xBEEF#16 0xFF#8], [], []) := by decide

theorem test_H3_write : stepHost (hostState (.writeDirect h9 0x0FFF#16 0xBEEF#16 0xFF#8) [] 1 [⟨0, 0#16, 0#8⟩]) =
    some ([.ready], [.writeField 0], [.write 1 0x09#7 0xFF#8 2 0xBEEF#16 0 (some 0xD3#8)]) := by decide +kernel

theorem test_H5_read : stepHost (hostState (.readFetch h9 0x4312#16 0x12#8) [] 1 [⟨0, 0xF0A0#16, 0x64#8⟩]) =
    some ([.readExtract h9 0x4312#16 0x12#8 0xF0A0#16], [],
      [.read 0 0x09#7 0x12#8 2 0 (some 0xF0A0#16) (some 0#16)]) := by decide +kernel

theorem test_H5_extract : stepHost (hostState (.readExtract h9 0x4312#16 0x12#8 0xF0A0#16) [] 1 []) =
    some ([.ready], [.readField (some 0x000A#16) 0], []) := by decide

theorem test_H6_extract : stepHost (hostState (.readExtract h9 0x0FFF#16 0xFF#8 0xBEEF#16) [] 1 []) =
    some ([.ready], [.readField (some 0xBEEF#16) 0], []) := by decide

theorem test_H7_failed_read : stepHost (hostState (.readFetch h9 0x4312#16 0x12#8) [] 1 [⟨3, 0#16, 0#8⟩]) =
    some ([.ready], [.readField none 3], [.read 0 0x09#7 0x12#8 2 3 none none]) := by decide

/-! ### Witnesses: a state and operands that meet the hypotheses of each statement -/

/-- One word presented, and the turns given. -/
def presented (acc : Byte) (w : Command) (ts : List Turn) : State :=
  { State.reset with acc := acc, commands := [w], turns := ts }

theorem witness_ResetClearsTheBlockOnly : (presented 0x5A#8 0x09#64 [.reset]).turns = .reset :: [] ∧
    step (presented 0x5A#8 0x09#64 [.reset]) = .next (presented 0x00#8 0x09#64 []) := ⟨rfl, rfl⟩

theorem witness_ResetHasTheEffectOfAccClearOnAcc : (presented 0x5A#8 0x09#64 [.reset, .command]).turns = .reset :: [.command] :=
  rfl

theorem witness_StepExecutesThePresentedCommand :
    (presented 0xAF#8 0x09#64 [.command]).commands = 0x09#64 :: [] ∧ decode 0x09#64 = .command .accClear ∧
    (presented 0xAF#8 0x09#64 [.command]).turns = .command :: [] ∧ (presented 0xAF#8 0x09#64 []).turns = [] := by decide

theorem witness_IdleBlockWaits : (hostState .ready [] 0 []).turns = [] ∧ (hostState .ready [] 0 []).commands = [] ∧
    ∀ a ∈ (hostState .ready [] 0 []).hosts, a.phase = .ready ∧ a.calls = [] := by decide

/-- The ends of R74's ranges, and a set `RSV` bit. -/
theorem witness_ReservedWordReportsOpErr_reserved :
    ReservedWord 0x00#64 ∧ ReservedWord 0x0B#64 ∧ ReservedWord 0x0F#64 ∧ ReservedWord 0x16#64 ∧ ReservedWord 0x1F#64 ∧
    ReservedWord 0x89#64 ∧ (presented 0x3E#8 0x0B#64 [.command]).commands = 0x0B#64 :: [] ∧
    (presented 0x3E#8 0x0B#64 [.command]).turns = .command :: [] := by
  unfold ReservedWord
  decide

theorem witness_ReservedWordReportsOpErr_assigned :
    ¬ReservedWord 0x01#64 ∧ ¬ReservedWord 0x0A#64 ∧ ¬ReservedWord 0x10#64 ∧ ¬ReservedWord 0x15#64 ∧
    (presented 0x3E#8 0x15#64 [.command]).commands = 0x15#64 :: [] := by
  unfold ReservedWord
  decide

theorem witness_EncodeKeepsTheCareBits :
    decode 0x001234000700E813#64 = .command (.pecReadWord 0x68#7 0x07#8 0x1234#16) := by decide

/-- C16's word and the same command without its don't-care bits. -/
theorem witness_DontCareBitsAreIgnored : decode 0x0000000000FF5A0A#64 = .command (.accUpdate 0x5A#8) ∧
    0x0000000000005A0A#64 &&& careMask (Instr.accUpdate 0x5A#8).mnemonic =
      0x0000000000FF5A0A#64 &&& careMask (Instr.accUpdate 0x5A#8).mnemonic := by decide

theorem witness_AssemblerTakesOperandsInAnyOrder :
    [(⟨.tag, 1⟩ : AsmArg), ⟨.regIn, 2⟩].Perm [⟨.regIn, 2⟩, ⟨.tag, 1⟩] ∧
    AsmCommand.wf ⟨.fieldExtract, [⟨.tag, 0⟩, ⟨.regIn, 2⟩]⟩ = true := ⟨.swap _ _ _, by decide⟩

/-- The four corners of valid descriptors: the whole register, the top bit, the lowest bit, an inner field. -/
theorem witness_MaskOfAValidDescriptor : ValidTag 0x0F00#16 ∧ tagOffset 0x0F00#16 = 0 ∧ tagSize 0x0F00#16 = 16 ∧
    ValidTag 0xF000#16 ∧ ValidTag 0x0000#16 ∧ ValidTag 0x4312#16 := by
  unfold ValidTag
  decide

theorem witness_DescriptorRoundTrip : ValidFields (0#4).toNat (16#5).toNat ∧ ValidFields (15#4).toNat (1#5).toNat ∧
    ValidFields (0#4).toNat (1#5).toNat := by
  unfold ValidFields
  decide

/-- Sizes 16 and 15, and a bit in and out of the field. -/
theorem witness_FieldMergeReplacesTheFieldOnly : tagSize 0x4F00#16 = 16 ∧ tagSize 0x1E00#16 < 16 ∧
    (tagOffset 0x1E00#16 ≤ 15 ∧ 15 < tagOffset 0x1E00#16 + tagSize 0x1E00#16) ∧ ¬tagOffset 0x1E00#16 ≤ 0 := by decide

theorem witness_FieldExtractReadsTheField : tagSize 0x0FFF#16 = 16 ∧ tagSize 0x0E00#16 < 16 := by decide

theorem witness_ExtractAndMergeAreInverse : ValidTag 0x0FFF#16 ∧ ValidTag 0x1E00#16 ∧ ValidTag 0xF000#16 := by
  unfold ValidTag
  decide

/-- C6: the remainder of 0xD0 over an ACC of 0. -/
theorem witness_AnyRemainderIsTheMachinesAnswer : RemainderOfShifted ((withAcc 0x00#8).acc ^^^ 0xD0#8) 0x3E#8 :=
  ⟨0xD2#8, by decide⟩

/-- C15. -/
theorem witness_AccUpdateFoldsTheByte : (0x3E#8 : Byte) = (withAcc 0x3E#8).acc ∧
    stepWord 0x3E#8 0x0000000000003E0A = some (0x00#8, 0x00000000#32) := by decide

/-- Program 2's frame, after an ACC_CLEAR and from reset. -/
def streamed (clear : Bool) : State :=
  { State.reset with
    commands := (if clear then [encode .accClear] else []) ++ updateWords (frameWriteWord 0x68#7 0x07#8 0x1234#16) }

theorem witness_StreamedPecEqualsOneShotPec_clear : (streamed true).turns = [] ∧
    (streamed true).commands = encode .accClear :: updateWords (frameWriteWord 0x68#7 0x07#8 0x1234#16) ++ [] := ⟨rfl, rfl⟩

theorem witness_StreamedPecEqualsOneShotPec_reset : (streamed false).turns = [] ∧ (streamed false).acc = 0#8 ∧
    (streamed false).commands = updateWords (frameWriteWord 0x68#7 0x07#8 0x1234#16) ++ [] := ⟨rfl, rfl, rfl⟩

theorem witness_AccFollowsTheAccOperations : (streamed true).turns = [] ∧
    (streamed true).commands = [0x09#64, 0xD00A#64] ++ [0x070A#64, 0x340A#64, 0x120A#64] := by decide

theorem witness_OnlyAccOperationsWriteAcc_command :
    runCommand Config.policy 0x89#64 (withAcc 0x3E#8) = .next (withAcc 0x3E#8).reportReserved ∧
    decode 0x89#64 ≠ .command .accClear ∧ ∀ d, decode 0x89#64 ≠ .command (.accUpdate d) :=
  ⟨rfl, by decide, fun d => by rw [show decode 0x89#64 = .reserved (.rsvBits 4#3) from by decide]; simp⟩

theorem witness_OnlyAccOperationsWriteAcc_host (s : State) :
    moveHost Config.policy 0 ⟨.ready, [], []⟩ s = .next s ∧
    (Phase.ready = .ready → ∀ w cs, ([] : List HostCall) ≠ .command w :: cs) := ⟨rfl, fun _ _ _ h => by cases h⟩

theorem witness_StatelessResultsDependOnTheWordAlone : ∀ d, decode 0x09#64 ≠ .command (.accUpdate d) :=
  fun d => by rw [show decode 0x09#64 = .command .accClear from by decide]; simp

theorem witness_StepKeepsTheResponseInvariant : ResponseInv (presented 0x00#8 0x09#64 []) ∧
    ∃ t, stepUnder Config.policy (presented 0x00#8 0x09#64 []) = .next t :=
  ⟨by unfold ResponseInv; decide, _, rfl⟩

theorem witness_StepKeepsTheHostsInvariant : HostsInv (hostState (.readFetch h9 0x4312#16 0x12#8) [] 1 [⟨0, 0xF0A0#16, 0x64#8⟩]) ∧
    (nextOf (step (hostState (.readFetch h9 0x4312#16 0x12#8) [] 1 [⟨0, 0xF0A0#16, 0x64#8⟩]))).isSome = true := by
  refine ⟨fun a ha => ?_, by decide⟩
  simp only [hostState, List.mem_singleton] at ha
  subst ha
  show (0x12#8).toNat = tagSub 0x4312#16
  decide

theorem witness_HostsInvariantBeforeAnyProcedure :
    ∀ a ∈ (hostState .ready [.readField h9 0x4312#16] 1 []).hosts, a.phase = .ready := by decide

/-- An invalid descriptor on a waiting word, offset and size adding up to 17: MASK of 0xF100. -/
theorem invalid_mask : InvalidWord 0x00F10005#64 :=
  ⟨.mask 0xF100#16, by decide, by simp only [ValidDescriptor, ValidTag]; decide⟩

/-- A valid one, adding up to 16: MASK of 0xF000. -/
theorem valid_mask : ¬InvalidWord 0x00F00005#64 := by
  rintro ⟨i, hd, hv⟩
  rw [show decode 0x00F00005#64 = .command (.mask 0xF000#16) from by decide] at hd
  cases hd
  exact hv (by simp only [ValidDescriptor, ValidTag]; decide)

/-- A waiting word, with and without a listed turn, and a word that a host issues of its own. -/
theorem witness_DescriptorPolicyFaultsOnInvalidDescriptors_fault :
    executedWord (presented 0x00#8 0x00F10005#64 []) = some 0x00F10005#64 ∧
    executedWord (presented 0x00#8 0x00F10005#64 [.command]) = some 0x00F10005#64 ∧
    executedWord (hostState .ready [.command 0x00F10005#64] 1 []) = some 0x00F10005#64 ∧
    InvalidWord 0x00F10005#64 := ⟨by decide, by decide, by decide, invalid_mask⟩

/-- The DEC_SUBADDR that begins a procedure on an invalid tag. -/
theorem witness_DescriptorPolicyFaultsOnInvalidDescriptors_procedure :
    executedWord (hostState .ready [.readField h9 0xF100#16] 1 []) = some (encode (.decSubaddr 0xF100#16)) ∧
    InvalidWord (encode (.decSubaddr 0xF100#16)) :=
  ⟨by decide, .decSubaddr 0xF100#16, by decide, by simp only [ValidDescriptor, ValidTag]; decide⟩

/-- A word with a valid descriptor, and a step that executes no word. -/
theorem witness_DescriptorPolicyFaultsOnInvalidDescriptors_same :
    (∀ w, executedWord (presented 0x00#8 0x00F00005#64 []) = some w → ¬InvalidWord w) ∧
    ∀ w, executedWord (presented 0x00#8 0x00F10005#64 [.reset]) = some w → ¬InvalidWord w := by
  refine ⟨fun w hw => ?_, fun w hw => ?_⟩
  · rw [show executedWord (presented 0x00#8 0x00F00005#64 []) = some 0x00F00005#64 from by decide] at hw
    cases hw
    exact valid_mask
  · rw [show executedWord (presented 0x00#8 0x00F10005#64 [.reset]) = none from by decide] at hw
    cases hw

theorem witness_KeptDutiesNeverFault : DutiesKept (hostState .ready [.writeField h9 0x4312#16 0x000A#16] 1 []) := by
  refine ⟨fun w hw => by simp [hostState, State.reset] at hw, fun a ha => ?_⟩
  simp only [hostState, List.mem_singleton] at ha
  subst ha
  refine ⟨trivial, fun c hc => ?_⟩
  simp only [List.mem_singleton] at hc
  subst hc
  show tagOffset 0x4312#16 + tagSize 0x4312#16 ≤ 16
  decide

/-- H3. -/
theorem witness_WriteFieldOfAWholeRegister :
    let s := hostState .ready [.writeField h9 0x0FFF#16 0xBEEF#16] 2 [⟨0, 0#16, 0#8⟩]
    s.hosts[0]? = some ⟨.ready, [.writeField h9 0x0FFF#16 0xBEEF#16], []⟩ ∧ s.turns = .host 0 :: .host 0 :: [] ∧
    tagSize 0x0FFF#16 = 16 := by decide

/-- H1. -/
theorem witness_WriteFieldByReadModifyWrite :
    let s := hostState .ready [.writeField h9 0x4312#16 0x000A#16] 4 [⟨0, 0xF0F0#16, 0x68#8⟩, ⟨0, 0#16, 0#8⟩]
    s.hosts[0]? = some ⟨.ready, [.writeField h9 0x4312#16 0x000A#16], []⟩ ∧
    s.turns = .host 0 :: .host 0 :: .host 0 :: .host 0 :: [] ∧ tagSize 0x4312#16 < 16 ∧
    0x12#8 = BitVec.ofNat 8 (tagSub 0x4312#16) ∧ s.transport.reply.status = 0 := by decide

/-- H2. -/
theorem witness_FailedReadStopsTheWrite :
    let s := hostState .ready [.writeField h9 0x4312#16 0x000A#16] 2 [⟨5, 0#16, 0#8⟩]
    s.hosts[0]? = some ⟨.ready, [.writeField h9 0x4312#16 0x000A#16], []⟩ ∧ s.turns = .host 0 :: .host 0 :: [] ∧
    tagSize 0x4312#16 < 16 ∧ 0x12#8 = BitVec.ofNat 8 (tagSub 0x4312#16) ∧ s.transport.reply.status ≠ 0 := by decide

/-- H5. -/
theorem witness_ReadFieldReturnsTheField_success :
    let s := hostState .ready [.readField h9 0x4312#16] 3 [⟨0, 0xF0A0#16, 0x64#8⟩]
    s.hosts[0]? = some ⟨.ready, [.readField h9 0x4312#16], []⟩ ∧ 0x12#8 = BitVec.ofNat 8 (tagSub 0x4312#16) ∧
    s.transport.reply.status = 0 ∧ s.turns = .host 0 :: .host 0 :: .host 0 :: [] := by decide

/-- H7. -/
theorem witness_ReadFieldReturnsTheField_failure :
    let s := hostState .ready [.readField h9 0x4312#16] 2 [⟨3, 0#16, 0#8⟩]
    s.hosts[0]? = some ⟨.ready, [.readField h9 0x4312#16], []⟩ ∧ 0x12#8 = BitVec.ofNat 8 (tagSub 0x4312#16) ∧
    s.transport.reply.status ≠ 0 ∧ s.turns = .host 0 :: .host 0 :: [] := by decide

theorem witness_HostReceivesTheResponseOfItsCommand :
    let s := hostState .ready [.command 0x000000000000D00A#64] 1 []
    s.hosts[0]? = some ⟨.ready, [.command 0x000000000000D00A#64], []⟩ ∧ s.turns = .host 0 :: [] ∧
    stepHost s = some ([.ready], [.response 0x003E003E#32], []) := by decide

/-- A state from which a step issues a transport call. -/
theorem witness_EveryTransportCallIsAProcedures :
    HostsInv (hostState (.writeDirect h9 0x0FFF#16 0xBEEF#16 0xFF#8) [] 1 [⟨0, 0#16, 0#8⟩]) ∧
    (nextOf (step (hostState (.writeDirect h9 0x0FFF#16 0xBEEF#16 0xFF#8) [] 1 [⟨0, 0#16, 0#8⟩]))).isSome = true := by
  refine ⟨fun a ha => ?_, by decide⟩
  simp only [hostState, List.mem_singleton] at ha
  subst ha
  show (0xFF#8).toNat = tagSub 0x0FFF#16 ∧ tagSize 0x0FFF#16 = 16
  decide

theorem witness_HostTurnLeavesOtherHosts : (hostState .ready [.command 0x09#64] 1 []).turns = .host 0 :: [] ∧
    (nextOf (step (hostState .ready [.command 0x09#64] 1 []))).isSome = true := by decide

theorem witness_TransportUsesThePecOperations : (⟨0, 0x1234#16, 0x98#8⟩ : Reply).status = 0 ∧
    (⟨5, 0x1234#16, 0x98#8⟩ : Reply).status ≠ 0 := by decide

end Sys2Proof.Tests
end

section
/-! PROOFS. Every step completes (00_scope.md R19, 60_exceptions.md R166), and which transport calls a step records
(41_field_access.md R120 to R124, R128): each said first of a host's move, then of a turn, then of the step. -/

namespace Sys2Proof.Machine

open Sys2Proof.Safety

/-! ### The step as a turn -/

/-- A step is one turn, taken in the state with some turns left to come: what holds of every turn holds of every step. -/
theorem stepUnder_eq_runTurn (p : Policy) (s : State) :
    ∃ t ts, stepUnder p s = runTurn p t { s with turns := ts } := by
  cases h : s.turns with
  | nil => exact ⟨defaultTurn s, s.turns, stepUnder_noTurn h⟩
  | cons t ts => exact ⟨t, ts, stepUnder_turn h⟩

/-- With no word presented the block's turn changes nothing (R187). -/
theorem commandTurn_nil {p : Policy} {s : State} (h : s.commands = []) : commandTurn p s = .next s := by
  simp [commandTurn, h]

theorem hostTurn_of_some {p : Policy} {k : Nat} {a : HostAgent} {s : State} (h : s.hosts[k]? = some a) :
    hostTurn p k s = moveHost p k a s := by
  simp [hostTurn, h]

theorem hostTurn_of_none {p : Policy} {k : Nat} {s : State} (h : s.hosts[k]? = none) :
    hostTurn p k s = .next s := by
  simp [hostTurn, h]

/-! ### Completion under the machine's own policy -/

theorem andThen_completes {r : Result} {f : State → Result} (hr : ∃ t, r = .next t) (hf : ∀ t, ∃ u, f t = .next u) :
    ∃ u, andThen r f = .next u := by
  obtain ⟨t, rfl⟩ := hr
  exact hf t

theorem beginCall_completes (k : Nat) (a : HostAgent) (s : State) : ∃ t, beginCall Config.policy k a s = .next t := by
  unfold beginCall
  match a.calls with
  | [] => exact ⟨s, rfl⟩
  | .command w :: _ => exact andThen_completes (runCommand_completes w s) fun _ => ⟨_, rfl⟩
  | .writeField .. :: _ =>
    refine andThen_completes (runCommand_completes _ s) fun t => ?_
    split <;> exact ⟨_, rfl⟩
  | .readField .. :: _ => exact andThen_completes (runCommand_completes _ s) fun _ => ⟨_, rfl⟩

theorem readAndContinue_completes (k : Nat) (a : HostAgent) (h : Handle) (c : Byte) (failed : Status → Returned)
    (nxt : Half → Phase) (s : State) : ∃ t, readAndContinue k a h c failed nxt s = .next t := by
  obtain ⟨-, h⟩ | ⟨-, h⟩ := readAndContinue_cases k a h c failed nxt s <;> exact ⟨_, h⟩

theorem moveHost_completes (k : Nat) (a : HostAgent) (s : State) : ∃ t, moveHost Config.policy k a s = .next t := by
  unfold moveHost
  cases a.phase with
  | ready => exact beginCall_completes k a s
  | writeDirect | writeBack => exact ⟨_, rfl⟩
  | writeFetch | readFetch => exact readAndContinue_completes ..
  | writeMerge | readExtract => exact andThen_completes (runCommand_completes _ s) fun _ => ⟨_, rfl⟩

theorem commandTurn_completes (s : State) : ∃ t, commandTurn Config.policy s = .next t := by
  cases h : s.commands with
  | nil => exact ⟨s, commandTurn_nil h⟩
  | cons w ws => exact commandTurn_cons h ▸ runCommand_completes w _

theorem hostTurn_completes (k : Nat) (s : State) : ∃ t, hostTurn Config.policy k s = .next t := by
  cases h : s.hosts[k]? with
  | none => exact ⟨s, hostTurn_of_none h⟩
  | some a => exact hostTurn_of_some h ▸ moveHost_completes k a s

theorem runTurn_completes (t : Turn) (s : State) : ∃ u, runTurn Config.policy t s = .next u := by
  cases t with
  | reset => exact ⟨s.resetBlock, rfl⟩
  | command => exact commandTurn_completes s
  | host k => exact hostTurn_completes k s

/-! ### The transport in a step, under any policy -/

/-- A word leaves the transport alone, and so does what follows it where that does. -/
theorem andThen_runCommand_transport {p : Policy} {w : Command} {s t : State} {f : State → Result}
    (hf : ∀ u v, f u = .next v → v.transport = u.transport) (h : andThen (runCommand p w s) f = .next t) :
    t.transport = s.transport := by
  obtain ⟨u, hu, ht⟩ := andThen_eq_next.1 h
  obtain ⟨_, _, _, rfl, -⟩ := runCommand_next hu
  simpa using hf _ t ht

theorem beginCall_transport {p : Policy} {k : Nat} {a : HostAgent} {s t : State} (h : beginCall p k a s = .next t) :
    t.transport = s.transport := by
  unfold beginCall at h
  match a.calls, h with
  | [], h =>
    cases h
    rfl
  | .command _ :: _, h => exact andThen_runCommand_transport (fun u v hv => by cases hv; rfl) h
  | .writeField .. :: _, h =>
    exact andThen_runCommand_transport (fun u v hv => by split at hv <;> cases hv <;> rfl) h
  | .readField .. :: _, h => exact andThen_runCommand_transport (fun u v hv => by cases hv; rfl) h

/-- A procedure's read records exactly its own event, whether it fails or goes on with the data. -/
theorem readAndContinue_transport {k : Nat} {a : HostAgent} {h : Handle} {c : Byte} {failed : Status → Returned}
    {nxt : Half → Phase} {s t : State} (ht : readAndContinue k a h c failed nxt s = .next t) :
    t.transport = s.transport.record (readEvent s.transport h c) := by
  obtain ⟨-, hr⟩ | ⟨-, hr⟩ := readAndContinue_cases k a h c failed nxt s <;> cases hr.symm.trans ht <;> rfl

/-- A procedure's write records exactly its own event. -/
theorem writeAndReturn_transport {k : Nat} {a : HostAgent} {h : Handle} {c : Byte} {d : Half} {s t : State}
    (ht : writeAndReturn k a h c d s = .next t) : t.transport = s.transport.record (writeEvent s.transport h c d) := by
  cases ht
  rfl

/-- A host's move records no call, or the one call that the rules give its phase. -/
theorem moveHost_transport {p : Policy} {k : Nat} {a : HostAgent} {s t : State} (hi : PhaseInv a.phase)
    (h : moveHost p k a s = .next t) :
    t.transport = s.transport ∨ ∃ e, t.transport = s.transport.record e ∧ CallOf a e := by
  unfold moveHost at h
  cases hp : a.phase <;> simp only [hp, PhaseInv] at h hi
  case ready => exact .inl (beginCall_transport h)
  case writeMerge | readExtract => exact .inl (andThen_runCommand_transport (fun u v hv => by cases hv; rfl) h)
  case writeDirect | writeBack => exact .inr ⟨_, writeAndReturn_transport h, by simp [CallOf, hp, writeEvent, hi]⟩
  case writeFetch | readFetch => exact .inr ⟨_, readAndContinue_transport h, by simp [CallOf, hp, readEvent, hi]⟩

theorem commandTurn_transport {p : Policy} {s t : State} (h : commandTurn p s = .next t) :
    t.transport = s.transport := by
  cases hc : s.commands with
  | nil =>
    cases (commandTurn_nil hc).symm.trans h
    rfl
  | cons w ws =>
    obtain ⟨_, _, _, rfl, -⟩ := runCommand_next ((commandTurn_cons hc).symm.trans h)
    rfl

theorem hostTurn_transport {p : Policy} {k : Nat} {s t : State} (hs : HostsInv s) (h : hostTurn p k s = .next t) :
    t.transport = s.transport ∨ ∃ a ∈ s.hosts, ∃ e, t.transport = s.transport.record e ∧ CallOf a e := by
  cases hk : s.hosts[k]? with
  | none =>
    cases (hostTurn_of_none hk).symm.trans h
    exact .inl rfl
  | some a =>
    have ha : a ∈ s.hosts := List.mem_of_getElem? hk
    have hm : moveHost p k a s = .next t := (hostTurn_of_some hk).symm.trans h
    exact (moveHost_transport (hs a ha) hm).imp_right fun he => ⟨a, ha, he⟩

/-- Only a turn of a host reaches the transport, and then by that host's move. -/
theorem runTurn_transport {p : Policy} {u : Turn} {s t : State} (hs : HostsInv s) (h : runTurn p u s = .next t) :
    t.transport = s.transport ∨ ∃ a ∈ s.hosts, ∃ e, t.transport = s.transport.record e ∧ CallOf a e := by
  cases u with
  | reset =>
    cases h
    exact .inl rfl
  | command => exact .inl (commandTurn_transport h)
  | host k => exact hostTurn_transport hs h

/-! ### The obligations -/

/-- Settles O6: the step is a turn, and every turn completes under the machine's own policy. -/
theorem everyStepCompletes : Obligations.EveryStepCompletes := by
  intro s
  obtain ⟨u, ts, hu⟩ := stepUnder_eq_runTurn Config.policy s
  obtain ⟨t, ht⟩ := runTurn_completes u { s with turns := ts }
  exact ⟨t, hu.trans ht⟩

/-- Settles O48: the step is a turn, taken in a state with the same hosts and the same transport. -/
theorem everyTransportCallIsAProcedures : Obligations.EveryTransportCallIsAProcedures := by
  intro p s t hs h
  obtain ⟨u, ts, hu⟩ := stepUnder_eq_runTurn p s
  exact runTurn_transport (s := { s with turns := ts }) hs (hu.symm.trans h)

end Sys2Proof.Machine
end

section
/-! PROOFS. The block's state (10_state.md): the response port and its layout (R27, R28, R31), ACC and who writes it (R23, R25),
reserved words (R74, R75), invalid descriptors (R30, K2), and what a host's turn leaves alone (R33, R54). What a host's move, a turn
and a step do to the block is said once, by the word that is executed in it. -/

namespace Sys2Proof.Machine

open Sys2Proof.Safety

/-! ### The response word (R27) -/

/-- A response is the sum of its fields at their places. -/
theorem rsp_toNat_eq_fields (r : Rsp) :
    r.toNat = (rspReserved r).toNat * 2 ^ 27 + (rspOpErr r).toNat * 2 ^ 26 + (rspDescErr r).toNat * 2 ^ 25 +
      (rspWhole r).toNat * 2 ^ 24 + (rspAccOut r).toNat * 2 ^ 16 + (rspResult r).toNat := by
  have bit (i : Nat) : (r.getLsbD i).toNat = r.toNat / 2 ^ i % 2 := Nat.toNat_testBit _ _
  simp only [rspReserved, rspOpErr, rspDescErr, rspWhole, rspAccOut, rspResult, bit, BitVec.extractLsb'_toNat,
    Nat.shiftRight_eq_div_pow]
  have := r.isLt
  omega

/-- Settles O15: the packed fields are what the reading of a response gives back. -/
theorem responseWordLayout : Obligations.ResponseWordLayout := by
  intro f acc result
  rw [rsp_toNat_eq_fields]
  simp

/-! ### Reserved words (R74) -/

theorem opField_toNat (w : Command) : (opField w).toNat = w.toNat % 32 := by
  simp [opField, BitVec.extractLsb'_toNat]

theorem rsvField_toNat (w : Command) : (rsvField w).toNat = w.toNat / 32 % 8 := by
  simp [rsvField, BitVec.extractLsb'_toNat, Nat.shiftRight_eq_div_pow]

/-- The codes that no mnemonic has are those of R74's list. -/
theorem mnemonicOfCode_eq_none (c : BitVec 5) : mnemonicOfCode c = none ↔
    c.toNat = 0 ∨ (0x0B ≤ c.toNat ∧ c.toNat ≤ 0x0F) ∨ 0x16 ≤ c.toNat := by
  decide +revert

/-- The decoder rejects exactly the words of R74's list. -/
theorem decode_reserved_iff (w : Command) : (∃ y, decode w = .reserved y) ↔ ReservedWord w := by
  have hcode := mnemonicOfCode_eq_none (opField w)
  rw [opField_toNat] at hcode
  have hrsv : rsvField w ≠ 0#3 ↔ w.toNat / 32 % 8 ≠ 0 := by
    rw [← rsvField_toNat, Ne, ← BitVec.toNat_inj]
    rfl
  rw [ReservedWord, ← hcode, ← hrsv, decode]
  by_cases h : rsvField w = 0#3
  · cases mnemonicOfCode (opField w) <;> simp [h]
  · simp [h]

/-- Settles O5: a reserved word is reported, or is the fault of K11; any other is a command, which answers `OP_ERR` 0. -/
theorem reservedWordReportsOpErr : Obligations.ReservedWordReportsOpErr := by
  intro s w ws ts hc ht
  rw [step, stepUnder_command hc ht, stepUnder_command hc ht]
  rw [← decode_reserved_iff]
  cases hd : decode w with
  | command i =>
    obtain ⟨v, f, r, hx, hf, -⟩ := exec_completes i { s with commands := ws, turns := ts }
    exact ⟨by simp, by simp, fun _ => ⟨_, (runCommand_command hd _).trans hx, by simp [hf]⟩⟩
  | reserved y =>
    refine ⟨fun _ => ⟨_, runCommand_reserved hd _, ?_, rfl⟩, fun _ => ?_, by simp⟩
    · simpa [reservedFlags] using responseWordLayout reservedFlags s.acc 0#16
    · simp [runCommand, hd, runReserved, Config.strictPolicy]

/-! ### ACC and the results (R23, R25) -/

/-- Whatever the policy, a word that completes leaves ACC as R23 says. -/
theorem runCommand_acc {p : Policy} {w : Command} {s t : State} (h : runCommand p w s = .next t) :
    t.acc = accAfterWord s.acc w := by
  unfold accAfterWord
  split
  case h_1 hd =>
    cases exec_of_runCommand hd h
    rfl
  case h_2 d hd =>
    cases exec_of_runCommand hd h
    rfl
  case h_3 hclear hupdate =>
    obtain ⟨v, f, r, rfl, -, hv⟩ := runCommand_next h
    exact hv hclear hupdate

/-- Settles O34, by induction on the words: each step executes the first of them. -/
theorem accFollowsTheAccOperations : Obligations.AccFollowsTheAccOperations := by
  intro ws
  induction ws with
  | nil => exact fun rest s _ hc => ⟨s, rfl, rfl, hc, rfl, rfl⟩
  | cons w ws ih =>
    intro rest s ht hc
    obtain ⟨u, hu⟩ := runCommand_completes w { s with commands := ws ++ rest }
    have hstep : step s = .next u := (stepUnder_presented hc ht).trans hu
    have hacc := runCommand_acc hu
    obtain ⟨v, f, r, rfl, -⟩ := runCommand_next hu
    obtain ⟨t, hrun, htacc, hframe⟩ := ih rest ((State.writeAcc { s with commands := ws ++ rest } v).respond f r) ht rfl
    exact ⟨t, (run_succ _ hstep).trans hrun, by rw [htacc, hacc, List.foldl_cons], hframe⟩

/-- Every command but ACC_UPDATE answers with flags and a result that its operands alone give. -/
theorem exec_stateless {i : Instr} (hi : ∀ d, i ≠ .accUpdate d) :
    ∃ f r, ∀ s, ∃ v, exec i s = .next ((s.writeAcc v).respond f r) := by
  cases i
  case accUpdate d => exact absurd rfl (hi d)
  case accClear => exact ⟨_, _, fun s => ⟨_, rfl⟩⟩
  all_goals exact ⟨_, _, fun s => ⟨s.acc, rfl⟩⟩

/-- Settles O36: a command's flags and result are its own, and a reserved word always has the same report. -/
theorem statelessResultsDependOnTheWordAlone : Obligations.StatelessResultsDependOnTheWordAlone := by
  intro w s u hw
  cases hd : decode w with
  | command i =>
    obtain ⟨f, r, hx⟩ := exec_stateless (i := i) fun d hi => hw d (hi ▸ hd)
    obtain ⟨v, hs⟩ := hx s
    obtain ⟨v', hu⟩ := hx u
    exact ⟨_, _, (runCommand_command hd s).trans hs, (runCommand_command hd u).trans hu, by simp⟩
  | reserved y => exact ⟨_, _, runCommand_reserved hd s, runCommand_reserved hd u, by simp⟩

/-! ### A host's move, by the word it issues -/

/-- A move that issues a word executes it, and then the host goes on. -/
theorem moveHost_of_issuedWord {a : HostAgent} {w : Command} (k : Nat) (h : issuedWord a = some w) :
    ∃ f : State → Result, (∀ u, ∃ b, f u = .next (u.setHost k b)) ∧
      ∀ p s, moveHost p k a s = andThen (runCommand p w s) f := by
  obtain ⟨ph, calls, rs⟩ := a
  cases ph with
  | ready =>
    match calls, h with
    | .command _ :: _, rfl | .readField .. :: _, rfl => exact ⟨_, fun u => ⟨_, rfl⟩, fun _ _ => rfl⟩
    | .writeField .. :: _, rfl =>
      refine ⟨_, fun u => ?_, fun _ _ => rfl⟩
      split <;> exact ⟨_, rfl⟩
  | writeMerge | readExtract =>
    cases h
    exact ⟨_, fun u => ⟨_, rfl⟩, fun _ _ => rfl⟩
  | _ => cases h

/-- A move that issues none does nothing or calls the transport, whatever the policy. -/
theorem moveHost_of_noIssuedWord {a : HostAgent} (k : Nat) (h : issuedWord a = none) (s : State) :
    ∃ t, (∀ p, moveHost p k a s = .next t) ∧ (t = s ∨ ∃ tr b, t = { s with transport := tr }.setHost k b) := by
  obtain ⟨ph, calls, rs⟩ := a
  cases ph with
  | ready =>
    match calls, h with
    | [], _ => exact ⟨s, fun _ => rfl, .inl rfl⟩
  | writeDirect | writeBack => exact ⟨_, fun _ => rfl, .inr ⟨_, _, rfl⟩⟩
  | writeFetch | readFetch =>
    obtain ⟨-, hr⟩ | ⟨-, hr⟩ := readAndContinue_cases k _ _ _ _ _ s <;> exact ⟨_, fun _ => hr, .inr ⟨_, _, rfl⟩⟩
  | _ => cases h

/-- What a completed move does: ACC is as R23 says of the word issued, if any; the presented words, the turns and every host
but at most its own stay. -/
theorem moveHost_next {p : Policy} {k : Nat} {a : HostAgent} {s t : State} (h : moveHost p k a s = .next t) :
    t.acc = (issuedWord a).elim s.acc (accAfterWord s.acc) ∧ t.commands = s.commands ∧ t.turns = s.turns ∧
      (t.hosts = s.hosts ∨ ∃ b, t.hosts = s.hosts.set k b) := by
  cases hw : issuedWord a with
  | none =>
    obtain ⟨u, hu, hcases⟩ := moveHost_of_noIssuedWord k hw s
    cases (hu p).symm.trans h
    obtain rfl | ⟨tr, b, rfl⟩ := hcases
    · exact ⟨rfl, rfl, rfl, .inl rfl⟩
    · exact ⟨rfl, rfl, rfl, .inr ⟨b, rfl⟩⟩
  | some w =>
    obtain ⟨f, hf, hmove⟩ := moveHost_of_issuedWord k hw
    obtain ⟨u, hu, ht⟩ := andThen_eq_next.1 ((hmove p s).symm.trans h)
    obtain ⟨b, hb⟩ := hf u
    cases hb.symm.trans ht
    have hacc : u.acc = accAfterWord s.acc w := runCommand_acc hu
    obtain ⟨v, g, r, rfl, -⟩ := runCommand_next hu
    exact ⟨hacc, rfl, rfl, .inr ⟨b, rfl⟩⟩

/-- What a host's turn leaves alone; where there is no such host it does nothing. -/
theorem hostTurn_frame {p : Policy} {k : Nat} {s t : State} (h : hostTurn p k s = .next t) :
    t.commands = s.commands ∧ t.turns = s.turns ∧ (t.hosts = s.hosts ∨ ∃ b, t.hosts = s.hosts.set k b) := by
  cases hk : s.hosts[k]? with
  | none =>
    cases (hostTurn_of_none hk).symm.trans h
    exact ⟨rfl, rfl, .inl rfl⟩
  | some a => exact (moveHost_next ((hostTurn_of_some hk).symm.trans h)).2

/-- Settles O49: the turn sets the entry of host `k` in the list of hosts, if any. -/
theorem hostTurnLeavesOtherHosts : Obligations.HostTurnLeavesOtherHosts := by
  intro p s t k ts ht h
  obtain ⟨hcommands, hturns, hhosts | ⟨b, hhosts⟩⟩ := hostTurn_frame ((stepUnder_turn ht).symm.trans h)
  · exact ⟨by rw [hhosts], fun _ _ => by rw [hhosts], hcommands, hturns⟩
  · exact ⟨by simp [hhosts], fun j hj => by simp [hhosts, hj.symm], hcommands, hturns⟩

/-- A word that a move issues is a host's own command, or one of a procedure's, which do not write ACC. -/
theorem issuedWord_cases {a : HostAgent} {w : Command} (h : issuedWord a = some w) :
    (a.phase = .ready ∧ ∃ cs, a.calls = .command w :: cs) ∨ ∀ acc, accAfterWord acc w = acc := by
  obtain ⟨ph, calls, rs⟩ := a
  cases ph with
  | ready =>
    match calls, h with
    | .command _ :: cs, rfl => exact .inl ⟨rfl, cs, rfl⟩
    | .writeField .. :: _, rfl | .readField .. :: _, rfl =>
      exact .inr fun acc => by simp [accAfterWord, decode_encode_decSubaddr]
  | writeMerge =>
    cases h
    exact .inr fun acc => by simp [accAfterWord, decode_encode_fieldMerge]
  | readExtract =>
    cases h
    exact .inr fun acc => by simp [accAfterWord, decode_encode_fieldExtract]
  | _ => cases h

/-- Settles O35: of words, the case of R23 that is neither of the two; of moves, by the word that a procedure issues. -/
theorem onlyAccOperationsWriteAcc : Obligations.OnlyAccOperationsWriteAcc := by
  constructor
  · intro p w s t h hclear hupdate
    obtain ⟨v, f, r, rfl, -, hv⟩ := runCommand_next h
    exact hv hclear hupdate
  · intro p k a s t h hown
    obtain ⟨hacc, -⟩ := moveHost_next h
    cases hw : issuedWord a with
    | none => rwa [hw] at hacc
    | some w =>
      obtain ⟨hready, cs, hcs⟩ | hkeeps := issuedWord_cases hw
      · exact absurd hcs (hown hready w cs)
      · rw [hacc, hw, Option.elim_some, hkeeps]

/-! ### The step, by the word it executes -/

/-- The block of `t` stands as that of `s`: the same ACC and the same response port. -/
def SameBlock (s t : State) : Prop := t.acc = s.acc ∧ t.rsp = s.rsp

theorem andThen_pure (r : Result) : andThen r .next = r := by
  cases r <;> rfl

/-- A turn that executes a word executes it in some state, and what then follows is not the policy's and leaves the block. -/
theorem runTurn_of_word {s : State} {x : Turn} {w : Command} (h : wordOfTurn s x = some w) :
    ∃ s' f, (∀ u v, f u = .next v → SameBlock u v) ∧ ∀ p, runTurn p x s = andThen (runCommand p w s') f := by
  cases x with
  | reset => cases h
  | command =>
    obtain ⟨ws, hc⟩ := List.head?_eq_some_iff.1 h
    refine ⟨{ s with commands := ws }, .next, fun u v huv => ?_, fun p => ?_⟩
    · cases huv
      exact ⟨rfl, rfl⟩
    · rw [andThen_pure, runTurn, commandTurn_cons hc]
  | host k =>
    obtain ⟨a, ha, hw⟩ := Option.bind_eq_some_iff.1 h
    obtain ⟨f, hf, hmove⟩ := moveHost_of_issuedWord k hw
    refine ⟨s, f, fun u v huv => ?_, fun p => (hostTurn_of_some ha).trans (hmove p s)⟩
    obtain ⟨b, hb⟩ := hf u
    cases hb.symm.trans huv
    exact ⟨rfl, rfl⟩

/-- A turn that executes none completes alike under every policy, and resets the block or leaves it. -/
theorem runTurn_of_noWord {s : State} {x : Turn} (h : wordOfTurn s x = none) :
    ∃ t, (∀ p, runTurn p x s = .next t) ∧ (SameBlock s t ∨ SameBlock s.resetBlock t) := by
  cases x with
  | reset => exact ⟨_, fun _ => rfl, .inr ⟨rfl, rfl⟩⟩
  | command => exact ⟨s, fun _ => commandTurn_nil (List.head?_eq_none_iff.1 h), .inl ⟨rfl, rfl⟩⟩
  | host k =>
    cases hk : s.hosts[k]? with
    | none => exact ⟨s, fun _ => hostTurn_of_none hk, .inl ⟨rfl, rfl⟩⟩
    | some a =>
      have hw : issuedWord a = none := by simpa [wordOfTurn, hk] using h
      obtain ⟨t, ht, hcases⟩ := moveHost_of_noIssuedWord k hw s
      refine ⟨t, fun p => (hostTurn_of_some hk).trans (ht p), .inl ?_⟩
      obtain rfl | ⟨tr, b, rfl⟩ := hcases <;> exact ⟨rfl, rfl⟩

/-- The step is the turn whose word `executedWord` gives, in a state that differs in the turns to come alone. -/
theorem stepUnder_eq_turn_of_executedWord (s : State) :
    ∃ x ts, wordOfTurn { s with turns := ts } x = executedWord s ∧
      ∀ p, stepUnder p s = runTurn p x { s with turns := ts } := by
  cases ht : s.turns with
  | nil =>
    refine ⟨defaultTurn s, s.turns, (executedWord_noTurn ht).symm, fun p => stepUnder_noTurn ht⟩
  | cons x ts =>
    refine ⟨x, ts, ?_, fun p => stepUnder_turn ht⟩
    rw [executedWord_turn ht]
    cases x <;> rfl

/-- A step that executes a word is that word under the policy, and then something that is the same under all. -/
theorem stepUnder_of_executedWord {s : State} {w : Command} (h : executedWord s = some w) :
    ∃ s' f, (∀ u v, f u = .next v → SameBlock u v) ∧ ∀ p, stepUnder p s = andThen (runCommand p w s') f := by
  obtain ⟨x, ts, hx, hstep⟩ := stepUnder_eq_turn_of_executedWord s
  obtain ⟨s', f, hf, hturn⟩ := runTurn_of_word (hx.trans h)
  exact ⟨s', f, hf, fun p => (hstep p).trans (hturn p)⟩

/-- A step that executes none is the same under every policy, and resets the block or leaves it. -/
theorem stepUnder_of_noExecutedWord {s : State} (h : executedWord s = none) :
    ∃ t, (∀ p, stepUnder p s = .next t) ∧ (SameBlock s t ∨ SameBlock s.resetBlock t) := by
  obtain ⟨x, ts, hx, hstep⟩ := stepUnder_eq_turn_of_executedWord s
  obtain ⟨t, ht, hcases⟩ := runTurn_of_noWord (hx.trans h)
  exact ⟨t, fun p => (hstep p).trans (ht p), hcases⟩

/-! ### The response invariant (R27, R28, R31) -/

/-- The invariant speaks of the block alone. -/
theorem responseInv_of_sameBlock {s t : State} (h : SameBlock s t) (hs : ResponseInv s) : ResponseInv t := by
  obtain ⟨hacc, hrsp⟩ := h
  rwa [ResponseInv, hacc, hrsp]

theorem responseInv_resetBlock (s : State) : ResponseInv s.resetBlock := by
  simp only [ResponseInv, State.resetBlock_rsp, State.resetBlock_acc]
  decide

/-- A word that completes sets the response afresh, whatever stood on the port. -/
theorem responseInv_of_runCommand {p : Policy} {w : Command} {s t : State} (h : runCommand p w s = .next t) :
    ResponseInv t := by
  obtain ⟨v, f, r, rfl, hop, -⟩ := runCommand_next h
  simpa [ResponseInv] using hop

/-- Settles O37, by the word that the step executes. -/
theorem stepKeepsTheResponseInvariant : Obligations.StepKeepsTheResponseInvariant := by
  intro p s t hs h
  cases hw : executedWord s with
  | none =>
    obtain ⟨u, hu, hcases⟩ := stepUnder_of_noExecutedWord hw
    cases (hu p).symm.trans h
    exact hcases.elim (responseInv_of_sameBlock · hs) (responseInv_of_sameBlock · (responseInv_resetBlock s))
  | some w =>
    obtain ⟨s', f, hf, hstep⟩ := stepUnder_of_executedWord hw
    obtain ⟨u, hu, ht⟩ := andThen_eq_next.1 ((hstep p).symm.trans h)
    exact responseInv_of_sameBlock (hf u t ht) (responseInv_of_runCommand hu)

/-! ### Invalid descriptors as faults (R30, K2) -/

/-- A command sets `DESC_ERR` exactly when its descriptor is invalid (R30). -/
theorem exec_descErr {i : Instr} {s t : State} (h : exec i s = .next t) :
    rspDescErr t.rsp = true ↔ ¬ValidDescriptor i := by
  cases i <;> cases h
  case encodeDesc o z a =>
    simp only [State.respond_rsp, rspDescErr_packRsp, encodeFlags, ValidDescriptor, ValidFields, Bool.not_eq_true',
      decide_eq_false_iff_not]
  case decSubaddr | decSize | decOffset | mask | fieldMerge | fieldExtract => simp [ValidDescriptor, ValidTag]
  all_goals simp [noFlags, ValidDescriptor]

theorem runCommand_fault_of_invalid {w : Command} (h : InvalidWord w) (q : ReservedPolicy) (s : State) :
    runCommand { reserved := q, descriptor := .fault } w s = .fault (.invalidDescriptor w) := by
  obtain ⟨i, hd, hi⟩ := h
  obtain ⟨v, f, r, hx, -⟩ := exec_completes i s
  have hflag := (exec_descErr hx).2 hi
  simp only [runCommand, hd, hx, andThen_next, checkDescriptor, hflag, if_true]

theorem runCommand_fault_of_not_invalid {w : Command} (h : ¬InvalidWord w) (q : ReservedPolicy) (s : State) :
    runCommand { reserved := q, descriptor := .fault } w s =
      runCommand { reserved := q, descriptor := .compute } w s := by
  cases hd : decode w with
  | reserved y => simp [runCommand, hd]
  | command i =>
    obtain ⟨v, f, r, hx, -⟩ := exec_completes i s
    have hflag := mt (exec_descErr hx).1 fun hi => h ⟨i, hd, hi⟩
    simp only [runCommand, hd, hx, andThen_next, checkDescriptor, if_neg hflag]

/-- Settles O41: the policy enters a step only by the word that is executed in it. -/
theorem descriptorPolicyFaultsOnInvalidDescriptors : Obligations.DescriptorPolicyFaultsOnInvalidDescriptors := by
  intro q s
  refine ⟨fun w => ⟨fun h => runCommand_fault_of_invalid h q s, fun h => runCommand_fault_of_not_invalid h q s⟩,
    fun w hw hinvalid => ?_, fun hvalid => ?_⟩
  · obtain ⟨s', f, -, hstep⟩ := stepUnder_of_executedWord hw
    rw [hstep, runCommand_fault_of_invalid hinvalid, andThen_fault]
  · cases hw : executedWord s with
    | none =>
      obtain ⟨t, ht, -⟩ := stepUnder_of_noExecutedWord hw
      rw [ht, ht]
    | some w =>
      obtain ⟨s', f, -, hstep⟩ := stepUnder_of_executedWord hw
      rw [hstep, hstep, runCommand_fault_of_not_invalid (hvalid w hw)]

/-! ### Reset (R24, R186, R190) -/

/-- Settles O1: a listed reset is `State.resetBlock`, with the turn taken. -/
theorem resetClearsTheBlockOnly : Obligations.ResetClearsTheBlockOnly :=
  ⟨rfl, rfl, fun _ _ ht => stepUnder_turn ht⟩

end Sys2Proof.Machine
end

section
/-! PROOFS. Hosts on the command port and on the bus (20_memory.md): a command that a host issues completes within its move, and its
response reaches the host (R53), and two hosts' WRITE_FIELDs to one register can interleave so that a change is lost (R51, R54, K9). -/

namespace Sys2Proof.Machine

open Sys2Proof.Safety

/-! ### A host's own command (R53) -/

/-- The turns to come are no input of a command: it carries them along. -/
theorem exec_withTurns (i : Instr) (s : State) (ts : List Turn) :
    exec i { s with turns := ts } = andThen (exec i s) fun u => .next { u with turns := ts } := by
  cases i <;> rfl

/-- So it is with any word that the block executes, a reserved one included. -/
theorem runCommand_withTurns {w : Command} {s u : State} (h : runCommand Config.policy w s = .next u) (ts : List Turn) :
    runCommand Config.policy w { s with turns := ts } = .next { u with turns := ts } := by
  cases hd : decode w with
  | command i =>
    have hx : exec i s = .next u := exec_of_runCommand hd h
    exact (runCommand_command hd _).trans (by rw [exec_withTurns, hx, andThen_next])
  | reserved y =>
    cases (runCommand_reserved hd s).symm.trans h
    exact runCommand_reserved hd _

/-- A ready host issues its own command: the block executes the word, and the host has the response (R53, R61). -/
theorem step_begin_command {s u : State} {k : Nat} {a : HostAgent} {w : Command} {cs : List HostCall} {ts : List Turn}
    (ha : s.hosts[k]? = some a) (ht : s.turns = .host k :: ts) (hp : a.phase = .ready) (hc : a.calls = .command w :: cs)
    (hu : runCommand Config.policy w s = .next u) :
    step s = .next (({ u with turns := ts }).setHost k ((a.begin cs .ready).finish (.response u.rsp))) := by
  rw [step, stepUnder_host ha ht, moveHost]
  simp [hp, beginCall, hc, runCommand_withTurns hu]

/-- Settles O47: the word completes, and what the block leaves alone stays as it was in the host's move. -/
theorem hostReceivesTheResponseOfItsCommand : Obligations.HostReceivesTheResponseOfItsCommand := by
  intro s k a w cs ts ha hp hc ht
  obtain ⟨u, hu⟩ := runCommand_completes w s
  have hstep := step_begin_command ha ht hp hc hu
  obtain ⟨v, f, r, rfl, -⟩ := runCommand_next hu
  exact ⟨_, _, hstep, hu, rfl, rfl, getElem?_set_host ha _, rfl, rfl, rfl⟩

/-! ### The lost update (R51, R54, K9)

Host 0 is in its read-modify-write when host 1 reads the same register: host 1 merges into the word from before host 0's write, and
writes that back. -/

section race

variable (h : Handle) (tagA tagB valueA valueB first : Half)

/-- Two hosts, each with one WRITE_FIELD, on a device whose register holds `first` when each of them reads it. -/
def raceStart : State :=
  { State.reset with
    hosts := [{ phase := .ready, calls := [.writeField h tagA valueA], returned := [] },
      { phase := .ready, calls := [.writeField h tagB valueB], returned := [] }]
    transport := { Transport.initial with replies := [⟨0, first, 0#8⟩, ⟨0, first, 0#8⟩, ⟨0, 0#16, 0#8⟩, ⟨0, 0#16, 0#8⟩] }
    turns := [.host 0, .host 1, .host 0, .host 1, .host 0, .host 0, .host 1, .host 1] }

/-- The calls of the race: both reads, then both writes, each of the word merged into `first`. -/
def raceLog : List BusEvent :=
  [.read h.readFn h.addr (sub tagA) h.config 0 (some first) none,
    .read h.readFn h.addr (sub tagB) h.config 0 (some first) none,
    .write h.writeFn h.addr (sub tagA) h.config (mergeField tagA first valueA) 0 none,
    .write h.writeFn h.addr (sub tagB) h.config (mergeField tagB first valueB) 0 none]

/-- Both WRITE_FIELDs run to their end and return 0, with these calls. -/
theorem run_raceStart (hA : tagSize tagA < 16) (hB : tagSize tagB < 16) :
    ∃ t, core.run 8 (raceStart h tagA tagB valueA valueB first) = .next t ∧
      t.hosts.map (·.returned) = [[.writeField 0], [.writeField 0]] ∧
      t.transport.log = raceLog h tagA tagB valueA valueB first :=
  ⟨_, run_succ 7 (step_begin_writeField_part (k := 0) rfl rfl rfl rfl hA)
    |>.trans (run_succ 6 (step_begin_writeField_part (k := 1) rfl rfl rfl rfl hB))
    |>.trans (run_succ 5 (step_writeFetch_ok (k := 0) rfl rfl rfl rfl))
    |>.trans (run_succ 4 (step_writeFetch_ok (k := 1) rfl rfl rfl rfl))
    |>.trans (run_succ 3 (step_writeMerge (k := 0) rfl rfl rfl))
    |>.trans (run_succ 2 (step_writeBack (k := 0) rfl rfl rfl))
    |>.trans (run_succ 1 (step_writeMerge (k := 1) rfl rfl rfl))
    |>.trans (run_succ 0 (step_writeBack (k := 1) rfl rfl rfl)), rfl, rfl⟩

/-- Plain storage allows the race: no write comes before either read. -/
theorem plainStorage_raceLog : plainStorage first (raceLog h tagA tagB valueA valueB first) := by
  intro n fn ad c cfg d pt hn
  match n, hn with
  | 0, hn | 1, hn =>
    cases hn
    rfl
  | 2, hn | 3, hn | n + 4, hn => cases hn

/-- Of one register, the second host's merged word is the last written. -/
theorem lastWritten_raceLog (hsub : tagSub tagA = tagSub tagB) :
    lastWritten h.addr (BitVec.ofNat 8 (tagSub tagA)) first (raceLog h tagA tagB valueA valueB first) =
      mergeField tagB first valueB := by
  simp [raceLog, lastWritten, sub_eq_ofNat, hsub]

end race

/-- Settles O51: the race on bits 3:0 and 7:4 of register 0x12, which holds 0xF0F0 at first; both hosts write 0xA. -/
theorem lostUpdateIsAdmitted : Obligations.LostUpdateIsAdmitted := by
  obtain ⟨t, hrun, hreturned, hlog⟩ :=
    run_raceStart ⟨0x09#7, 0, 1, 2⟩ 0x0312#16 0x4312#16 0x000A#16 0x000A#16 0xF0F0#16 (by decide) (by decide)
  refine ⟨_, t, 8, ⟨0x09#7, 0, 1, 2⟩, 0x0312#16, 0x4312#16, 0x000A#16, 0x000A#16, 0xF0F0#16, rfl, rfl, ?validA, ?validB,
    by decide, by decide, hrun, hreturned, ?storage, _, rfl, ?lost, by decide⟩
  case validA | validB =>
    rw [ValidTag]
    decide
  case storage =>
    rw [hlog]
    apply plainStorage_raceLog
  case lost =>
    rw [hlog, lastWritten_raceLog (hsub := by decide)]
    decide

end Sys2Proof.Machine
end

section
/-! PROOFS. The encoding (30_encoding.md): the command word as a sum (R62), the decoder said once by the fields it looks at (R72, R73),
encoding and decoding each from the other up to the don't-care bits (R64, R65), and the assembler (R77). -/

namespace Sys2Proof

open Sys2Proof.Machine Sys2Proof.Safety

/-! ### The decoder, by the fields of the word (R72, R73) -/

@[simp] theorem mnemonic_readOperands (m : Mnemonic) (w : Command) : (readOperands m w).mnemonic = m := by
  cases m <;> rfl

/-- A word is a command exactly when `RSV` is 0 and `OP` is the code of the instruction whose operands it holds. -/
theorem decode_eq_command_iff {w : Command} {i : Instr} : decode w = .command i ↔
    rsvField w = 0#3 ∧ opField w = i.mnemonic.code ∧ readOperands i.mnemonic w = i := by
  rw [decode]
  constructor
  · intro h
    split at h
    · cases h
    split at h
    · cases h
    next hr _ m hm =>
      cases h
      exact ⟨not_not.mp hr, by simp [code_of_mnemonicOfCode hm], by simp⟩
  · rintro ⟨hr, hop, hi⟩
    simp [hr, hop, hi]

/-! ### Decoding the encoded word (R62, R64) -/

/-- The operands of an instruction are read back from its word. -/
theorem readOperands_encode (i : Instr) : readOperands i.mnemonic (encode i) = i := by
  cases i <;> simp [Instr.mnemonic, readOperands, encode, operandSlots, slotByte, BitVec.extractLsb'_setWidth_of_le,
    BitVec.extractLsb'_eq_self]

/-- Settles O9: the word of an instruction has its code and `RSV` 0, and its operands are read back. -/
theorem decodeInvertsEncode : Obligations.DecodeInvertsEncode := by
  intro i
  obtain ⟨hop, hrsv⟩ := Laws.EncodedCode.holds i
  exact decode_eq_command_iff.mpr ⟨hrsv, hop, readOperands_encode i⟩

theorem encode_injective : Function.Injective encode := by
  intro i j h
  have hd := decodeInvertsEncode i
  rw [h, decodeInvertsEncode j] at hd
  cases hd
  rfl

/-! ### The don't-care bits (R64, R65, R77) -/

/-- A command's care mask takes all of `OP` and `RSV`. -/
@[simp] theorem opField_and_careMask (w : Command) (m : Mnemonic) : opField (w &&& careMask m) = opField w := by
  have hmask : (careMask m).extractLsb' 0 5 = BitVec.allOnes 5 := by cases m <;> rfl
  rw [opField, extractLsb'_and_mask, hmask, BitVec.and_allOnes, opField]

@[simp] theorem rsvField_and_careMask (w : Command) (m : Mnemonic) : rsvField (w &&& careMask m) = rsvField w := by
  have hmask : (careMask m).extractLsb' 5 3 = BitVec.allOnes 3 := by cases m <;> rfl
  rw [rsvField, extractLsb'_and_mask, hmask, BitVec.and_allOnes, rsvField]

/-- A whole slot is under the mask as it is; the mask stands as the number that evaluating `careMask` gives. -/
theorem and_ones_half (x : Half) : x &&& 0xFFFF#16 = x := BitVec.and_allOnes

theorem and_ones_byte (x : Byte) : x &&& 0xFF#8 = x := BitVec.and_allOnes

/-- Reading a word's operands and placing them again keeps the slot bits of the care mask and clears the others. -/
theorem operandSlots_readOperands (m : Mnemonic) (w : Command) : operandSlots (readOperands m w) =
    (slot1 (w &&& careMask m), slot2 (w &&& careMask m), slot3 (w &&& careMask m), slot4 (w &&& careMask m)) := by
  simp only [slot1, slot2, slot3, slot4, extractLsb'_and_mask]
  cases m <;> simp [readOperands, operandSlots, careMask, slot1, slot2, slot3, slot4, slotByte, setWidth_extractLsb',
    and_ones_half, and_ones_byte]

/-- Settles O10: the fields of both words agree, `OP` and `RSV` by the decoding, the slots by what was read from them. -/
theorem encodeKeepsTheCareBits : Obligations.EncodeKeepsTheCareBits := by
  intro w i h
  obtain ⟨hrsv, hop, hread⟩ := decode_eq_command_iff.mp h
  have hslots := operandSlots_readOperands i.mnemonic w
  rw [hread] at hslots
  apply command_ext <;> simp [encode, hslots, hrsv, hop]

/-- Settles O11: the other word has the same `OP` and `RSV`, so it is that command too, and by O10 with the same operands. -/
theorem dontCareBitsAreIgnored : Obligations.DontCareBitsAreIgnored := by
  intro w v i hw hcare
  obtain ⟨hrsv, hop, -⟩ := decode_eq_command_iff.mp hw
  have hrsv' : rsvField v = rsvField w := by simpa using congrArg rsvField hcare
  have hop' : opField v = opField w := by simpa using congrArg opField hcare
  have hv : decode v = .command (readOperands i.mnemonic v) :=
    decode_eq_command_iff.mpr ⟨hrsv'.trans hrsv, by simpa using hop'.trans hop, by simp⟩
  have hi : readOperands i.mnemonic v = i := encode_injective <| by
    rw [encodeKeepsTheCareBits v _ hv, encodeKeepsTheCareBits w i hw, mnemonic_readOperands, hcare]
  rw [hi] at hv
  exact ⟨hv, fun s => (runCommand_command hv s).trans (runCommand_command hw s).symm⟩

/-! ### Command words as numbers (R62, R72) -/

/-- A command word is the sum of its fields at their places. -/
theorem command_toNat_eq_fields (w : Command) :
    w.toNat = (slot4 w).toNat * 2 ^ 56 + (slot3 w).toNat * 2 ^ 40 + (slot2 w).toNat * 2 ^ 24 + (slot1 w).toNat * 2 ^ 8 +
      (rsvField w).toNat * 2 ^ 5 + (opField w).toNat := by
  simp only [slot4, slot3, slot2, slot1, rsvField_toNat, opField_toNat, BitVec.extractLsb'_toNat, Nat.shiftRight_eq_div_pow]
  have := w.isLt
  omega

/-- Settles O12: the fields of the packed word are the slots, the code, and `RSV` 0. -/
theorem commandWordIsTheSumOfItsSlots : Obligations.CommandWordIsTheSumOfItsSlots := by
  intro op s1 s2 s3 s4
  rw [command_toNat_eq_fields]
  simp

/-- R72's table gives each mnemonic the one number that its code is. -/
theorem mem_opcodeMap_iff (n : Nat) (m : Mnemonic) : (n, m) ∈ opcodeMap ↔ n = m.code.toNat := by
  cases m <;> simp [opcodeMap, Mnemonic.code]

/-- The low byte of a word is a code exactly when `RSV` is 0 and `OP` is that code. -/
theorem lowByte_eq_code_iff (w : Command) (c : BitVec 5) :
    w.toNat % 256 = c.toNat ↔ rsvField w = 0#3 ∧ opField w = c := by
  rw [← BitVec.toNat_inj, ← BitVec.toNat_inj, rsvField_toNat, opField_toNat, BitVec.toNat_ofNat]
  have := c.isLt
  omega

/-- Settles O8: the low byte is `RSV` and `OP`, and R72's table holds the codes. -/
theorem lowByteSelectsTheCommand : Obligations.LowByteSelectsTheCommand := by
  intro w m
  rw [mem_opcodeMap_iff, lowByte_eq_code_iff]
  constructor
  · rintro ⟨i, hd, rfl⟩
    obtain ⟨hrsv, hop, -⟩ := decode_eq_command_iff.mp hd
    exact ⟨hrsv, hop⟩
  · rintro ⟨hrsv, hop⟩
    exact ⟨readOperands m w, decode_eq_command_iff.mpr ⟨hrsv, by simpa using hop, by simp⟩, by simp⟩

/-! ### The assembler (R77) -/

/-- Where the operand `n` begins in the word of `m` (R64); 0 where the format has no such operand. -/
def Mnemonic.operandLo (m : Mnemonic) (n : OperandName) : Nat := (m.slotOf n).elim 0 (·.lo)

section operand

variable {m : Mnemonic} {n : OperandName} {k : Nat} (hk : (m.slotOf n).any (k ≤ ·.width) = true) (x : BitVec k)

include hk

theorem exists_slot_holding : ∃ slot, m.slotOf n = some slot ∧ x.toNat < 2 ^ slot.width := by
  obtain ⟨slot, hs, hw⟩ := (Option.any_eq_true _ _).mp hk
  exact ⟨slot, hs, x.isLt.trans_le (Nat.pow_le_pow_right Nat.two_pos (of_decide_eq_true hw))⟩

/-- An operand's value written as at most as many bits as R64 gives the operand is well formed. -/
theorem wf_toNat : AsmArg.wf m ⟨n, x.toNat⟩ = true := by
  obtain ⟨slot, hs, hx⟩ := exists_slot_holding hk x
  simp [AsmArg.wf, hs, hx]

/-- Such a value is placed as its bits, from the lowest bit of the slot on. -/
theorem placeArg_toNat : placeArg m ⟨n, x.toNat⟩ = x.setWidth 64 <<< m.operandLo n := by
  obtain ⟨slot, hs, hx⟩ := exists_slot_holding hk x
  simp [placeArg_of_slotOf hs, Nat.mod_eq_of_lt hx, Mnemonic.operandLo, hs]

end operand

theorem asmLine_wf (i : Instr) : (asmLine i).wf = true := by
  cases i <;> simp (disch := decide) [asmLine, AsmCommand.wf, argNamesDistinct, Instr.mnemonic, wf_toNat]

/-- Settles O13: the line is well formed, and each operand is placed at the bits where `encode` puts its slot. -/
theorem assembledLineIsTheEncodedWord : Obligations.AssembledLineIsTheEncodedWord := by
  intro i
  rw [assemble, if_pos (asmLine_wf i), encode, packCommand_eq]
  congr 1
  cases i <;> simp (disch := decide) [asmLine, operandSlots, Instr.mnemonic, placeArg_toNat,
    Mnemonic.operandLo, Mnemonic.slotOf, Mnemonic.format, Format.operands]

theorem argNamesDistinct_iff (as : List AsmArg) : argNamesDistinct as = true ↔ (as.map (·.name)).Nodup := by
  induction as with
  | nil => simp [argNamesDistinct]
  | cons a as ih => simp [argNamesDistinct, ih]

theorem wf_iff (m : Mnemonic) (as : List AsmArg) : AsmCommand.wf ⟨m, as⟩ = true ↔
    (∀ a ∈ as, AsmArg.wf m a = true) ∧ (as.map (·.name)).Nodup := by
  rw [AsmCommand.wf, Bool.and_eq_true, List.all_eq_true, argNamesDistinct_iff]

theorem wf_perm (m : Mnemonic) {as bs : List AsmArg} (h : as.Perm bs) : AsmCommand.wf ⟨m, as⟩ = AsmCommand.wf ⟨m, bs⟩ := by
  rw [Bool.eq_iff_iff, wf_iff, wf_iff, (h.map _).nodup_iff]
  simp only [h.mem_iff]

theorem wf_of_wf_cons {m : Mnemonic} {a : AsmArg} {as : List AsmArg} (h : AsmCommand.wf ⟨m, a :: as⟩ = true) :
    AsmCommand.wf ⟨m, as⟩ = true := by
  rw [wf_iff, List.forall_mem_cons, List.map_cons, List.nodup_cons] at h
  obtain ⟨⟨-, hargs⟩, -, hnames⟩ := h
  exact (wf_iff m as).mpr ⟨hargs, hnames⟩

/-- The value 0 places nothing. -/
@[simp] theorem placeArg_zero (m : Mnemonic) (n : OperandName) : placeArg m ⟨n, 0⟩ = 0#64 := by
  cases hs : m.slotOf n with
  | none => simp [placeArg, hs]
  | some slot => simp [placeArg_of_slotOf hs]

/-- The operands of a line are placed in any order with the same effect. -/
theorem foldl_placeArg_perm (m : Mnemonic) {as bs : List AsmArg} (h : as.Perm bs) (w : Command) :
    as.foldl (fun w a => w ||| placeArg m a) w = bs.foldl (fun w a => w ||| placeArg m a) w :=
  h.foldl_eq' (fun _ _ _ _ _ => by ac_rfl) w

/-- Settles O14: neither the order of the operands nor one with value 0 makes a difference to the check or to the word. -/
theorem assemblerTakesOperandsInAnyOrder : Obligations.AssemblerTakesOperandsInAnyOrder := by
  constructor
  · intro m as bs h
    simp only [assemble, wf_perm m h, foldl_placeArg_perm m h]
  · intro m n as h
    simp [assemble, h, wf_of_wf_cons h]

/-! ### The presented command (R61, R73) -/

/-- Settles O3: the step takes the first word from the port, and a command's word does what its instruction means. -/
theorem stepExecutesThePresentedCommand : Obligations.StepExecutesThePresentedCommand := by
  intro s w ws i hc hd
  exact ⟨fun ts ht => (stepUnder_command hc ht).trans (runCommand_command hd _),
    fun ht => (stepUnder_presented hc ht).trans (runCommand_command hd _)⟩

/-- Settles O7: each word is evaluated. -/
theorem workedWordsDecode : Obligations.WorkedWordsDecode := by
  unfold Obligations.WorkedWordsDecode
  decide

end Sys2Proof
end

section
/-! PROOFS. The descriptor codec (40_descriptor.md): the flags of a tag and of ENCODE (R29, R30), ENCODE and the decodes by plain
numbers (R91 to R94), the mask as a run, as a number and by its count of ones (R96 to R99), and the round trip (R100). -/

namespace Sys2Proof.Machine

open Sys2Proof.Safety

/-! ### Answering without writing ACC (R25, R27) -/

/-- A response with `OP_ERR` 0 is all that changes. -/
theorem answers_respond (s : State) {f : Flags} (hf : f.opErr = false) (r : Half) :
    Answers s (s.respond f r) s.acc r f.whole f.descErr := by
  constructor <;> simp [hf]

/-- A command that only responds has the result that it responds with. -/
theorem resultOf_of_exec {i : Instr} {s : State} {f : Flags} {r : Half} (h : exec i s = .next (s.respond f r)) :
    resultOf i s = some r := by
  simp [resultOf, h]

/-! ### The flags (R29, R30, R91) -/

theorem tagFlags_whole_iff (t : Half) : (tagFlags t).whole = true ↔ tagSize t = 16 := by simp

theorem tagFlags_descErr_iff (t : Half) : (tagFlags t).descErr = true ↔ ¬ValidTag t := by simp [ValidTag]

theorem encodeFlags_whole_iff (o : BitVec 4) (z : BitVec 5) : (encodeFlags o z).whole = true ↔ z.toNat = 16 :=
  decide_eq_true_iff

theorem encodeFlags_descErr_iff (o : BitVec 4) (z : BitVec 5) :
    (encodeFlags o z).descErr = true ↔ ¬ValidFields o.toNat z.toNat := by
  rw [encodeFlags, Bool.not_eq_true', decide_eq_false_iff_not, ValidFields]

/-! ### The packed tag and its fields, by plain numbers (R66, R67, R91) -/

/-- R91's `{offset_in, trunc_4(size_in - 1), subaddr_in}`: each bit of the tag is a bit of one of the three. -/
theorem makeTag_eq_append (o : BitVec 4) (z : BitVec 5) (a : Byte) :
    makeTag o z a = o ++ (z - 1#5).setWidth 4 ++ a := by
  unfold makeTag
  generalize (z - 1#5).setWidth 4 = p
  apply BitVec.eq_of_getLsbD_eq
  intro i hi
  simp only [BitVec.getLsbD_append, BitVec.getLsbD_or, BitVec.getLsbD_shiftLeft, BitVec.getLsbD_setWidth]
  grind

theorem makeTag_toNat (o : BitVec 4) (z : BitVec 5) (a : Byte) :
    (makeTag o z a).toNat = o.toNat * 4096 + (z.toNat + 15) % 16 * 256 + a.toNat := by
  rw [makeTag_eq_append, BitVec.toNat_append, BitVec.toNat_append, ← Nat.shiftLeft_add_eq_or_of_lt a.isLt,
    ← Nat.shiftLeft_add_eq_or_of_lt (BitVec.isLt _)]
  simp [BitVec.toNat_sub, Nat.shiftLeft_eq]
  omega

theorem makeTag_eq_ofNat (o : BitVec 4) (z : BitVec 5) (a : Byte) :
    makeTag o z a = BitVec.ofNat 16 (o.toNat * 4096 + (z.toNat + 15) % 16 * 256 + a.toNat) := by
  rw [← makeTag_toNat, BitVec.ofNat_toNat, BitVec.setWidth_eq]

@[simp] theorem tagOffset_makeTag (o : BitVec 4) (z : BitVec 5) (a : Byte) : tagOffset (makeTag o z a) = o.toNat := by
  rw [tagOffset, makeTag_toNat]
  omega

/-- The size comes back modulo 16, read as 1 to 16. -/
@[simp] theorem tagSize_makeTag (o : BitVec 4) (z : BitVec 5) (a : Byte) :
    tagSize (makeTag o z a) = (z.toNat + 15) % 16 + 1 := by
  rw [tagSize, makeTag_toNat]
  omega

@[simp] theorem tagSub_makeTag (o : BitVec 4) (z : BitVec 5) (a : Byte) : tagSub (makeTag o z a) = a.toNat := by
  rw [tagSub, makeTag_toNat]
  omega

theorem tagSub_lt (t : Half) : tagSub t < 256 := Nat.mod_lt _ (by decide)

/-- A tag is the packing of its own fields. -/
theorem makeTag_fields (t : Half) :
    makeTag (BitVec.ofNat 4 (tagOffset t)) (BitVec.ofNat 5 (tagSize t)) (BitVec.ofNat 8 (tagSub t)) = t := by
  apply BitVec.eq_of_toNat_eq
  rw [makeTag_toNat, BitVec.toNat_ofNat, BitVec.toNat_ofNat, BitVec.toNat_ofNat]
  have := t.isLt
  unfold tagOffset tagSize tagSub
  omega

/-! ### What the five commands do (R91 to R95) -/

section commands

variable (o : BitVec 4) (z : BitVec 5) (a : Byte) (tag : Half) (s : State)

theorem exec_encodeDesc :
    exec (.encodeDesc o z a) s = .next (s.respond (encodeFlags o z) (makeTag o z a)) := rfl

theorem exec_decSubaddr : exec (.decSubaddr tag) s = .next (s.respond (tagFlags tag) (BitVec.ofNat 16 (tagSub tag))) := by
  rw [← sub_toNat, BitVec.ofNat_toNat]
  rfl

theorem exec_decSize : exec (.decSize tag) s = .next (s.respond (tagFlags tag) (BitVec.ofNat 16 (tagSize tag))) := by
  have hsize : (tag.extractLsb' 8 4).setWidth 16 + 1#16 = BitVec.ofNat 16 (tagSize tag) := by
    apply BitVec.eq_of_toNat_eq
    simp [tagSize, BitVec.extractLsb'_toNat, Nat.shiftRight_eq_div_pow]
  rw [← hsize]
  rfl

theorem exec_decOffset : exec (.decOffset tag) s = .next (s.respond (tagFlags tag) (BitVec.ofNat 16 (tagOffset tag))) := by
  rw [← off_toNat, BitVec.ofNat_toNat]
  rfl

theorem exec_mask : exec (.mask tag) s = .next (s.respond (tagFlags tag) (maskOf tag)) := rfl

end commands

/-- Settles O16: the answer is the packed tag with ENCODE's own flags. -/
theorem encodePacksTheDescriptor : Obligations.EncodePacksTheDescriptor := by
  intro o z a s
  rw [← makeTag_eq_ofNat]
  exact ⟨_, exec_encodeDesc o z a s, _, _, answers_respond s rfl _, encodeFlags_whole_iff o z, encodeFlags_descErr_iff o z⟩

/-- Settles O17: each answer is a field of the tag with the tag's flags. -/
theorem decodesReadTheTagFields : Obligations.DecodesReadTheTagFields := by
  intro tag s
  exact ⟨_, _, tagFlags_whole_iff tag, tagFlags_descErr_iff tag,
    ⟨_, exec_decSubaddr tag s, answers_respond s rfl _⟩,
    ⟨_, exec_decSize tag s, answers_respond s rfl _⟩,
    ⟨_, exec_decOffset tag s, answers_respond s rfl _⟩⟩

/-! ### The mask (R96 to R99) -/

/-- The ones of a mask, for any tag: from `OFF` on, `SZ` of them or up to bit 15. -/
theorem getLsbD_maskOf_iff (tag : Half) (i : Nat) :
    (maskOf tag).getLsbD i = true ↔ tagOffset tag ≤ i ∧ i ≤ min 15 (tagOffset tag + tagSize tag - 1) := by
  have hpos := tagSize_pos tag
  rcases Nat.lt_or_ge i 16 with hi | hi
  · rw [getLsbD_maskOf tag i hi, decide_eq_true_iff]
    omega
  · simp only [BitVec.getLsbD_of_ge _ _ hi, Bool.false_eq_true, false_iff]
    omega

/-- Settles O18: the answer is the mask with the tag's flags. -/
theorem maskIsTheRunOfTheField : Obligations.MaskIsTheRunOfTheField := by
  intro tag s
  exact ⟨_, exec_mask tag s, _, _, _, answers_respond s rfl _, tagFlags_whole_iff tag, tagFlags_descErr_iff tag,
    getLsbD_maskOf_iff tag⟩

/-- Of the numbers below `n`, those of a run of length `z` from `o` on. -/
theorem countP_range_run (o z n : Nat) :
    (List.range n).countP (fun i => decide (o ≤ i ∧ i < o + z)) = min n (o + z) - o := by
  induction n with
  | zero => simp
  | succ n ih =>
    simp only [List.range_succ, List.countP_append, ih, List.countP_singleton, decide_eq_true_iff]
    split <;> omega

theorem popcount_maskOf {tag : Half} (hv : ValidTag tag) : popcount (maskOf tag) = tagSize tag := by
  have hrun : popcount (maskOf tag) = _ := List.countP_congr fun i hi => by
    rw [getLsbD_maskOf tag i (List.mem_range.1 hi)]
  rw [hrun, countP_range_run, Nat.min_eq_right hv, Nat.add_sub_cancel_left]

/-- R97's closed form: the run of a valid descriptor is not cut at bit 15. -/
theorem maskOf_toNat {tag : Half} (hv : ValidTag tag) : (maskOf tag).toNat = (2 ^ tagSize tag - 1) * 2 ^ tagOffset tag := by
  apply Nat.eq_of_testBit_eq
  intro i
  have hpos := tagSize_pos tag
  unfold ValidTag at hv
  rw [BitVec.testBit_toNat, Nat.testBit_mul_two_pow, Nat.testBit_two_pow_sub_one, Bool.eq_iff_iff, getLsbD_maskOf_iff]
  simp only [Bool.and_eq_true, decide_eq_true_iff]
  omega

/-- Settles O19: a valid descriptor's mask is its run of ones, uncut. -/
theorem maskOfAValidDescriptor : Obligations.MaskOfAValidDescriptor := by
  intro tag s hv
  have hnum := maskOf_toNat hv
  have hpos := tagSize_pos tag
  have hoff := tagOffset_lt tag
  refine ⟨_, resultOf_of_exec (exec_mask tag s), popcount_maskOf hv, ?lowest, ?below, hnum, ?whole⟩
  case lowest =>
    rw [getLsbD_maskOf_iff]
    omega
  case below =>
    intro i hi
    rw [← Bool.not_eq_true, getLsbD_maskOf_iff]
    omega
  case whole =>
    intro h0 h16
    rw [h0, h16] at hnum
    exact BitVec.eq_of_toNat_eq hnum

/-! ### The round trip (R100) -/

/-- Settles O20: the decodes answer the fields of the packed tag, and any tag is the packing of its own fields. -/
theorem descriptorRoundTrip : Obligations.DescriptorRoundTrip := by
  constructor
  · intro o z a s hv
    obtain ⟨hpos, hle, -⟩ := hv
    have hsize : (z.toNat + 15) % 16 + 1 = z.toNat := by omega
    exact ⟨_, resultOf_of_exec (exec_encodeDesc o z a s), by simp [resultOf_of_exec (exec_decOffset _ s)],
      by simp [resultOf_of_exec (exec_decSize _ s), hsize], by simp [resultOf_of_exec (exec_decSubaddr _ s)]⟩
  · intro tag s
    have hoff := tagOffset_lt tag
    have hsize := tagSize_le tag
    have hsub := tagSub_lt tag
    refine ⟨_, _, _, resultOf_of_exec (exec_decOffset tag s), resultOf_of_exec (exec_decSize tag s),
      resultOf_of_exec (exec_decSubaddr tag s), ?offsetFits, ?sizeFits, ?subFits, ?packed⟩
    case offsetFits | sizeFits | subFits =>
      rw [BitVec.toNat_ofNat]
      omega
    case packed =>
      rw [resultOf_of_exec (exec_encodeDesc _ _ _ s)]
      simp [makeTag_fields]

end Sys2Proof.Machine
end

section
/-! PROOFS. Field access (41_field_access.md): what every procedure in progress holds (R121, R122, R124), FIELD_MERGE and
FIELD_EXTRACT bit by bit (R111 to R115), the procedures WRITE_FIELD and READ_FIELD move by move (R121 to R125), and the
transport's use of the PEC (R129). -/

namespace Sys2Proof.Machine

open Sys2Proof.Safety

/-! ### What every procedure in progress holds (R121, R122, R124) -/

theorem hostsInv_of_hosts_eq {s t : State} (h : t.hosts = s.hosts) (hs : HostsInv s) : HostsInv t := by
  rwa [HostsInv, h]

/-- The host that has moved may stand at any phase that holds what it should. -/
theorem hostsInv_setHost {s : State} {b : HostAgent} (hs : HostsInv s) (hb : PhaseInv b.phase) (k : Nat) :
    HostsInv (s.setHost k b) := by
  intro a ha
  obtain hmem | rfl := List.mem_or_eq_of_mem_set ha
  · exact hs a hmem
  · exact hb

/-- A host whose call has ended is between two calls. -/
theorem phaseInv_finish (a : HostAgent) (r : Returned) : PhaseInv (a.finish r).phase := trivial

theorem runCommand_hosts {p : Policy} {w : Command} {s t : State} (h : runCommand p w s = .next t) :
    t.hosts = s.hosts := by
  obtain ⟨_, _, _, rfl, -⟩ := runCommand_next h
  rfl

/-- A move that executes a word keeps the invariant, where its host then stands at a phase that holds what it should. -/
theorem hostsInv_andThen_runCommand {p : Policy} {w : Command} {k : Nat} {s t : State} {f : State → Result}
    (hs : HostsInv s) (h : andThen (runCommand p w s) f = .next t)
    (hf : ∀ u, runCommand p w s = .next u → ∃ b, f u = .next (u.setHost k b) ∧ PhaseInv b.phase) : HostsInv t := by
  obtain ⟨u, hu, ht⟩ := andThen_eq_next.1 h
  obtain ⟨b, hfu, hb⟩ := hf u hu
  cases hfu.symm.trans ht
  exact hostsInv_setHost (hostsInv_of_hosts_eq (runCommand_hosts hu) hs) hb k

/-- What a procedure reads of the response to its DEC_SUBADDR: the path that the size chooses, and the subaddress. -/
theorem issue_decSubaddr_response {p : Policy} {tag : Half} {s u : State} (h : issue p (.decSubaddr tag) s = .next u) :
    rspWhole u.rsp = decide (tagSize tag = 16) ∧ (lowByte (rspResult u.rsp)).toNat = tagSub tag := by
  cases exec_of_runCommand (decode_encode_decSubaddr tag) h
  simp [sub_toNat]

theorem issue_fieldMerge_result {p : Policy} {tag r v : Half} {s u : State}
    (h : issue p (.fieldMerge tag r v) s = .next u) : rspResult u.rsp = mergeField tag r v := by
  cases exec_of_runCommand (decode_encode_fieldMerge tag r v) h
  exact rspResult_packRsp _ _ _

/-- A procedure begins with its tag's subaddress, on the path that the size chooses. -/
theorem beginCall_keeps_hostsInv {p : Policy} {k : Nat} {a : HostAgent} {s t : State} (hs : HostsInv s)
    (h : beginCall p k a s = .next t) : HostsInv t := by
  unfold beginCall at h
  match a.calls, h with
  | [], h =>
    cases h
    exact hs
  | .command _ :: _, h => exact hostsInv_andThen_runCommand hs h fun _ _ => ⟨_, rfl, phaseInv_finish _ _⟩
  | .readField .. :: _, h =>
    exact hostsInv_andThen_runCommand hs h fun _ hu => ⟨_, rfl, (issue_decSubaddr_response hu).2⟩
  | .writeField _ tag _ :: _, h =>
    refine hostsInv_andThen_runCommand (k := k) hs h fun u hu => ?_
    obtain ⟨hwhole, hsub⟩ := issue_decSubaddr_response hu
    split
    case isTrue hw => exact ⟨_, rfl, hsub, by simpa [hw] using hwhole⟩
    case isFalse hw =>
      have hsize : tagSize tag ≠ 16 := by simpa [hw] using hwhole
      exact ⟨_, rfl, hsub, lt_of_le_of_ne (tagSize_le tag) hsize⟩

/-- A read ends its procedure, or goes on to a phase that holds what it should. -/
theorem readAndContinue_keeps_hostsInv {k : Nat} {a : HostAgent} {h : Handle} {c : Byte} {failed : Status → Returned}
    {nxt : Half → Phase} {s t : State} (hs : HostsInv s)
    (ht : readAndContinue k a h c failed nxt s = .next t) (hnxt : ∀ d, PhaseInv (nxt d)) : HostsInv t := by
  obtain ⟨-, hr⟩ | ⟨-, hr⟩ := readAndContinue_cases k a h c failed nxt s <;> cases hr.symm.trans ht
  · exact hostsInv_setHost (s := s.transportRead h c) hs (phaseInv_finish _ _) k
  · exact hostsInv_setHost (s := s.transportRead h c) hs (hnxt _) k

theorem writeAndReturn_keeps_hostsInv {k : Nat} {a : HostAgent} {h : Handle} {c : Byte} {d : Half} {s t : State}
    (hs : HostsInv s) (ht : writeAndReturn k a h c d s = .next t) : HostsInv t := by
  cases ht
  exact hostsInv_setHost (s := s.transportWrite h c d) hs (phaseInv_finish _ _) k

theorem moveHost_keeps_hostsInv {p : Policy} {k : Nat} {a : HostAgent} {s t : State} (hs : HostsInv s)
    (ha : PhaseInv a.phase) (h : moveHost p k a s = .next t) : HostsInv t := by
  unfold moveHost at h
  cases hp : a.phase <;> simp only [hp] at h ha
  case ready => exact beginCall_keeps_hostsInv hs h
  case writeDirect | writeBack => exact writeAndReturn_keeps_hostsInv hs h
  case writeFetch | readFetch => exact readAndContinue_keeps_hostsInv hs h fun _ => ha
  case writeMerge =>
    obtain ⟨hsub, hsize⟩ := ha
    exact hostsInv_andThen_runCommand hs h fun _ hu => ⟨_, rfl, hsub, hsize, issue_fieldMerge_result hu⟩
  case readExtract => exact hostsInv_andThen_runCommand hs h fun _ _ => ⟨_, rfl, phaseInv_finish _ _⟩

/-- Of the turns, only a host's moves a procedure on. -/
theorem runTurn_keeps_hostsInv {p : Policy} {x : Turn} {s t : State} (hs : HostsInv s) (h : runTurn p x s = .next t) :
    HostsInv t := by
  cases x with
  | reset =>
    cases h
    exact hs
  | command =>
    cases hc : s.commands with
    | nil =>
      cases (commandTurn_nil hc).symm.trans h
      exact hs
    | cons w ws => exact hostsInv_of_hosts_eq (runCommand_hosts ((commandTurn_cons hc).symm.trans h)) hs
  | host k =>
    cases hk : s.hosts[k]? with
    | none =>
      cases (hostTurn_of_none hk).symm.trans h
      exact hs
    | some a => exact moveHost_keeps_hostsInv hs (hs a (List.mem_of_getElem? hk)) ((hostTurn_of_some hk).symm.trans h)

/-- Settles O39: the step is a turn, taken in a state with the same hosts. -/
theorem stepKeepsTheHostsInvariant : Obligations.StepKeepsTheHostsInvariant := by
  intro p s t hs h
  obtain ⟨x, ts, hx⟩ := stepUnder_eq_runTurn p s
  exact runTurn_keeps_hostsInv (s := { s with turns := ts }) hs (hx.symm.trans h)

/-- Settles O40: between two calls a host holds nothing, and at reset there is no host. -/
theorem hostsInvariantBeforeAnyProcedure : Obligations.HostsInvariantBeforeAnyProcedure := by
  have hready : ∀ s : State, (∀ a ∈ s.hosts, a.phase = .ready) → HostsInv s := fun s h a ha => by
    rw [h a ha]
    trivial
  exact ⟨hready State.reset (List.forall_mem_nil _), hready⟩

/-! ### Merge and extract, bit by bit (R111 to R115) -/

theorem exec_fieldMerge (tag r v : Half) (s : State) :
    exec (.fieldMerge tag r v) s = .next (s.respond (tagFlags tag) (mergeField tag r v)) := rfl

theorem exec_fieldExtract (tag r : Half) (s : State) :
    exec (.fieldExtract tag r) s = .next (s.respond (tagFlags tag) (extractField tag r)) := rfl

section bits

variable {tag : Half} (r v : Half)

theorem mergeField_whole (hz : tagSize tag = 16) : mergeField tag r v = v := by
  rw [mergeField, if_pos ((sz_eq_sixteen tag).2 hz)]

theorem extractField_whole (hz : tagSize tag = 16) : extractField tag r = r := by
  rw [extractField, if_pos ((sz_eq_sixteen tag).2 hz)]

/-- Inside the field a merged word has the value's bits, outside it the register's. -/
theorem getLsbD_mergeField (hz : tagSize tag < 16) {j : Nat} (hj : j < 16) :
    (mergeField tag r v).getLsbD j =
      if tagOffset tag ≤ j ∧ j < tagOffset tag + tagSize tag then v.getLsbD (j - tagOffset tag) else r.getLsbD j := by
  rw [mergeField, if_neg (mt (sz_eq_sixteen tag).1 hz.ne), BitVec.getLsbD_or, BitVec.getLsbD_and, BitVec.getLsbD_and,
    BitVec.getLsbD_not, BitVec.getLsbD_shiftLeft, getLsbD_maskOf tag j hj, off_toNat]
  split
  case isTrue h => simp [h, hj, Nat.not_lt.2 h.1]
  case isFalse h => simp [h, hj]

/-- An extracted field has the register's bits from the offset on, up to the field's size or the register's end. -/
theorem getLsbD_extractField (hz : tagSize tag < 16) (j : Nat) :
    (extractField tag r).getLsbD j =
      (decide (j < tagSize tag ∧ tagOffset tag + j < 16) && r.getLsbD (tagOffset tag + j)) := by
  rw [extractField, if_neg (mt (sz_eq_sixteen tag).1 hz.ne), BitVec.getLsbD_ushiftRight, BitVec.getLsbD_and, off_toNat]
  rcases Nat.lt_or_ge (tagOffset tag + j) 16 with h | h
  · rw [getLsbD_maskOf tag _ h, Bool.and_comm]
    simp [h]
  · simp [BitVec.getLsbD_of_ge _ _ h]

theorem extractField_lt (hz : tagSize tag < 16) : (extractField tag r).toNat < 2 ^ tagSize tag := by
  refine Nat.lt_pow_two_of_testBit _ fun j hj => ?_
  rw [BitVec.testBit_toNat, getLsbD_extractField r hz]
  simp [Nat.not_lt.2 hj]

/-- R114: of a valid tag, the field of a merged word is what of the value fits in it. -/
theorem extractField_mergeField (hv : ValidTag tag) :
    (extractField tag (mergeField tag r v)).toNat = v.toNat % 2 ^ tagSize tag := by
  rcases (tagSize_le tag).eq_or_lt with hz | hz
  · rw [extractField_whole _ hz, mergeField_whole _ _ hz, hz, Nat.mod_eq_of_lt v.isLt]
  · apply Nat.eq_of_testBit_eq
    intro j
    rw [BitVec.testBit_toNat, Nat.testBit_mod_two_pow, BitVec.testBit_toNat, getLsbD_extractField _ hz]
    unfold ValidTag at hv
    by_cases hj : j < tagSize tag
    · have hin : tagOffset tag + j < 16 := by omega
      rw [getLsbD_mergeField r v hz hin]
      simp [hj, hin]
    · simp [hj]

/-- R114: of any tag, a word merged with its own field is itself. -/
theorem mergeField_extractField : mergeField tag r (extractField tag r) = r := by
  rcases (tagSize_le tag).eq_or_lt with hz | hz
  · rw [mergeField_whole _ _ hz, extractField_whole _ hz]
  · apply BitVec.eq_of_getLsbD_eq
    intro j hj
    rw [getLsbD_mergeField _ _ hz hj, getLsbD_extractField _ hz]
    split
    case isTrue h =>
      have hback : tagOffset tag + (j - tagOffset tag) = j := Nat.add_sub_cancel' h.1
      have hsize : j - tagOffset tag < tagSize tag := by omega
      simp [hback, hsize, hj]
    case isFalse => rfl

end bits

/-- Settles O21: the answer is the merged word with the tag's flags. -/
theorem fieldMergeReplacesTheFieldOnly : Obligations.FieldMergeReplacesTheFieldOnly := by
  intro tag r v s
  exact ⟨_, exec_fieldMerge tag r v s, _, _, _, answers_respond s rfl _, tagFlags_whole_iff tag, tagFlags_descErr_iff tag,
    mergeField_whole r v, fun hz _ hj => getLsbD_mergeField r v hz hj⟩

/-- Settles O22: the answer is the extracted field with the tag's flags. -/
theorem fieldExtractReadsTheField : Obligations.FieldExtractReadsTheField := by
  intro tag r s
  exact ⟨_, exec_fieldExtract tag r s, _, _, _, answers_respond s rfl _, tagFlags_whole_iff tag, tagFlags_descErr_iff tag,
    extractField_whole r, fun hz => ⟨extractField_lt r hz, getLsbD_extractField r hz⟩⟩

/-- Settles O23: both directions, of the results that the two commands answer. -/
theorem extractAndMergeAreInverse : Obligations.ExtractAndMergeAreInverse := by
  intro tag r v s hv
  refine ⟨⟨_, _, resultOf_of_exec (exec_fieldMerge tag r v s), resultOf_of_exec (exec_fieldExtract tag _ s),
    extractField_mergeField r v hv⟩, _, resultOf_of_exec (exec_fieldExtract tag r s), ?_⟩
  rw [resultOf_of_exec (exec_fieldMerge tag _ _ s), mergeField_extractField]

/-! ### The procedures, move by move (R121 to R125) -/

/-- The event of a successful read (R119). -/
theorem readEvent_ok {t : Transport} (hs : t.reply.status = 0) (h : Handle) (c : Byte) :
    readEvent t h c = .read h.readFn h.addr c h.config 0 (some t.reply.data) (readPecTest t.pecEnabled h.addr c t.reply) := by
  rw [readEvent, (readData_eq t.reply).1 hs, hs]

/-- A failed read has no data to check, whether the transport uses the PEC or not (R119, R129). -/
theorem readPecTest_failed {r : Reply} (hs : r.status ≠ 0) (enabled : Bool) (addr : BusAddr) (c : Byte) :
    readPecTest enabled addr c r = none := by
  simp [readPecTest, (readData_eq r).2 hs]

/-- The event of a failed read (R119). -/
theorem readEvent_failed {t : Transport} (hs : t.reply.status ≠ 0) (h : Handle) (c : Byte) :
    readEvent t h c = .read h.readFn h.addr c h.config t.reply.status none none := by
  rw [readEvent, (readData_eq t.reply).2 hs, readPecTest_failed hs]

/-- Settles O43: DEC_SUBADDR, which chooses the whole-register path, then the write. -/
theorem writeFieldOfAWholeRegister : Obligations.WriteFieldOfAWholeRegister := by
  intro s k a h tag value cs ts ha hp hc ht hz
  have hbegun := getElem?_set_host ha (a.begin cs (.writeDirect h tag value (sub tag)))
  have hrun := run_succ 1 (step_begin_writeField_whole ha ht hp hc hz)
    |>.trans (run_succ 0 (step_writeDirect hbegun rfl rfl))
  rw [← sub_eq_ofNat]
  exact ⟨_, hrun, rfl, getElem?_set_host hbegun _, rfl, rfl, rfl⟩

/-- Settles O44: DEC_SUBADDR, the read, FIELD_MERGE of its data, and the write of the merged word. -/
theorem writeFieldByReadModifyWrite : Obligations.WriteFieldByReadModifyWrite := by
  intro s k a h tag value cs ts c ha hp hc ht hz hsub hs
  rw [← sub_eq_ofNat] at hsub
  subst hsub
  have hbegun := getElem?_set_host ha (a.begin cs (.writeFetch h tag value (sub tag)))
  have hrun := run_succ 3 (step_begin_writeField_part ha ht hp hc hz)
    |>.trans (run_succ 2 (step_writeFetch_ok hbegun rfl rfl hs))
    |>.trans (run_succ 1 (step_writeMerge (getElem?_set_host hbegun _) rfl rfl))
    |>.trans (run_succ 0 (step_writeBack (getElem?_set_host (getElem?_set_host hbegun _) _) rfl rfl))
  refine ⟨_, _, hrun, resultOf_of_exec (exec_fieldMerge tag _ _ s), ?log,
    getElem?_set_host (getElem?_set_host (getElem?_set_host hbegun _) _) _, rfl, rfl, rfl⟩
  rw [← readEvent_ok hs]
  exact List.append_assoc _ _ _

/-- Settles O45: DEC_SUBADDR, then the read that fails. -/
theorem failedReadStopsTheWrite : Obligations.FailedReadStopsTheWrite := by
  intro s k a h tag value cs ts c ha hp hc ht hz hsub hs
  rw [← sub_eq_ofNat] at hsub
  subst hsub
  have hbegun := getElem?_set_host ha (a.begin cs (.writeFetch h tag value (sub tag)))
  have hrun := run_succ 1 (step_begin_writeField_part ha ht hp hc hz)
    |>.trans (run_succ 0 (step_writeFetch_failed hbegun rfl rfl hs))
  rw [← readEvent_failed hs]
  exact ⟨_, hrun, rfl, getElem?_set_host hbegun _, rfl, rfl, rfl⟩

/-- Settles O46: DEC_SUBADDR, the read, and where it succeeds the FIELD_EXTRACT of its data. -/
theorem readFieldReturnsTheField : Obligations.ReadFieldReturnsTheField := by
  intro s k a h tag cs ts c ha hp hc hsub
  rw [← sub_eq_ofNat] at hsub
  subst hsub
  have hbegun := getElem?_set_host ha (a.begin cs (.readFetch h tag (sub tag)))
  refine ⟨fun hs ht => ?ok, fun hs ht => ?failed⟩
  case ok =>
    have hrun := run_succ 2 (step_begin_readField ha ht hp hc)
      |>.trans (run_succ 1 (step_readFetch_ok hbegun rfl rfl hs))
      |>.trans (run_succ 0 (step_readExtract (getElem?_set_host hbegun _) rfl rfl))
    rw [← readEvent_ok hs]
    exact ⟨_, _, hrun, resultOf_of_exec (exec_fieldExtract tag _ s), rfl,
      getElem?_set_host (getElem?_set_host hbegun _) _, rfl, rfl⟩
  case failed =>
    have hrun := run_succ 1 (step_begin_readField ha ht hp hc)
      |>.trans (run_succ 0 (step_readFetch_failed hbegun rfl rfl hs))
    rw [← readEvent_failed hs]
    exact ⟨_, hrun, rfl, getElem?_set_host hbegun _, rfl, rfl⟩

/-! ### The transport's use of the PEC (R129) -/

theorem exec_pecWriteWord (a : BusAddr) (c : Byte) (d : Half) (s : State) :
    exec (.pecWriteWord a c d) s = .next (s.respond noFlags ((pecOf (frameWriteWord a c d)).setWidth 16)) := rfl

theorem exec_pecReadWordTest (a : BusAddr) (c : Byte) (d : Half) (e : Byte) (s : State) :
    exec (.pecReadWordTest a c d e) s = .next (s.respond noFlags (pecTestResult (frameReadWord a c d) e)) := rfl

/-- An enabled transport checks the data of a successful read against the received byte. -/
theorem readPecTest_ok {r : Reply} (hs : r.status = 0) (a : BusAddr) (c : Byte) :
    readPecTest true a c r = some (pecTestResult (frameReadWord a c r.data) r.pec) := by
  simp [readPecTest, (readData_eq r).1 hs]

/-- Settles O50: the byte sent and the check of a read are what the two PEC operations answer. -/
theorem transportUsesThePecOperations : Obligations.TransportUsesThePecOperations := by
  intro a c d r s
  refine ⟨⟨_, rfl, resultOf_of_exec (exec_pecWriteWord a c d s)⟩, fun hs => ?ok, fun hs => readPecTest_failed hs true a c,
    rfl, rfl⟩
  rw [readPecTest_ok hs, resultOf_of_exec (exec_pecReadWordTest a c r.data r.pec s)]

end Sys2Proof.Machine
end

section
/-! PROOFS. CRC and PEC (42_crc_pec.md): the one-byte update as division by P, and its laws (R136 to R139); CRC8 and the commands
of ACC (R141, R143, R144); the PECs of the four frames and their tests (R145 to R152); a frame streamed through ACC (R142). -/

namespace Sys2Proof.Machine

open Sys2Proof.Safety

/-! ### Congruence modulo P (R137) -/

/-- `x` and `y` differ by a multiple of `P`, the quotient of degree below 8. `RemainderOfShifted v r` is by definition
`CongruentModP (r.setWidth 16) (v.setWidth 16 <<< 8)`. -/
def CongruentModP (x y : BitVec 16) : Prop := ∃ q : Byte, timesP q 8 ^^^ x = y

/-- Adding the bits that switch a term adds what they switch. -/
theorem ite_xor {n : Nat} (b c : Bool) (x : BitVec n) :
    (if b ^^ c then x else 0#n) = (if b then x else 0#n) ^^^ (if c then x else 0#n) := by
  cases b <;> cases c <;> simp

theorem timesP_xor (q p : Byte) (n : Nat) : timesP (q ^^^ p) n = timesP q n ^^^ timesP p n := by
  induction n with
  | zero => exact BitVec.xor_zero.symm
  | succ n ih =>
    simp only [timesP, ih, BitVec.getLsbD_xor, ite_xor]
    ac_rfl

theorem CongruentModP.refl (x : BitVec 16) : CongruentModP x x := ⟨0#8, BitVec.zero_xor⟩

theorem CongruentModP.symm {x y : BitVec 16} (h : CongruentModP x y) : CongruentModP y x := by
  obtain ⟨q, rfl⟩ := h
  exact ⟨q, by rw [← BitVec.xor_assoc, BitVec.xor_self, BitVec.zero_xor]⟩

theorem CongruentModP.trans {x y z : BitVec 16} (hxy : CongruentModP x y) (hyz : CongruentModP y z) :
    CongruentModP x z := by
  obtain ⟨q, rfl⟩ := hxy
  obtain ⟨p, rfl⟩ := hyz
  exact ⟨p ^^^ q, by rw [timesP_xor, BitVec.xor_assoc]⟩

/-- `q(x) · P(x)` has degree below `8 + n` where `n` coefficients of `q` are taken. -/
theorem getLsbD_timesP_of_le (q : Byte) {n i : Nat} (hi : 8 + n ≤ i) : (timesP q n).getLsbD i = false := by
  induction n with
  | zero => simp [timesP]
  | succ n ih =>
    have hP : (0x0107#16).getLsbD (i - n) = false :=
      Nat.testBit_lt_two_pow (lt_of_lt_of_le (by decide) (Nat.pow_le_pow_right (by decide) (by omega : 9 ≤ i - n)))
    rw [timesP, BitVec.getLsbD_xor, ih (by omega)]
    split <;> simp [hP]

/-- A multiple of `P` of degree below 8 is 0: a highest term of the quotient would stay, times `x^8`. -/
theorem timesP_eq_zero {q : Byte} {n : Nat} (hn : n ≤ 8) (h : ∀ i, 8 ≤ i → (timesP q n).getLsbD i = false) :
    timesP q n = 0#16 := by
  induction n with
  | zero => rfl
  | succ n ih =>
    cases hq : q.getLsbD n with
    | true =>
      have hbelow := getLsbD_timesP_of_le q (Nat.le_refl (8 + n))
      have htop : (timesP q (n + 1)).getLsbD (8 + n) = true := by
        simpa [timesP, hq, hbelow] using (by omega : 8 + n < 16)
      exact absurd (h (8 + n) (by omega)) (by rw [htop]; decide)
    | false =>
      have hskip : timesP q (n + 1) = timesP q n := by simp [timesP, hq]
      rw [hskip] at h ⊢
      exact ih (by omega) h

/-- Congruent bytes are equal. -/
theorem CongruentModP.byte_eq {m n : Byte} (h : CongruentModP (m.setWidth 16) (n.setWidth 16)) : m = n := by
  obtain ⟨q, hq⟩ := h
  have hzero : timesP q 8 = 0#16 := by
    refine timesP_eq_zero (Nat.le_refl 8) fun i hi => ?_
    have hbit := congrArg (BitVec.getLsbD · i) hq
    simpa [BitVec.getLsbD_of_ge _ i hi] using hbit
  rw [hzero, BitVec.zero_xor] at hq
  simpa using congrArg (BitVec.setWidth 8) hq

theorem remainder_unique {v m n : Byte} (hm : RemainderOfShifted v m) (hn : RemainderOfShifted v n) : m = n :=
  CongruentModP.byte_eq (CongruentModP.trans hm (CongruentModP.symm hn))

/-! ### The rounds divide by P (R136, R137) -/

/-- One round is `w(x) · x` less `P(x)` where that has degree 8. -/
theorem crcRound_setWidth (w : Byte) :
    (if w.getLsbD 7 then 0x0107#16 else 0#16) ^^^ (crcRound w).setWidth 16 = w.setWidth 16 <<< 1 := by
  decide +revert

theorem congruent_crcRound (w : Byte) {n : Nat} (hn : n < 8) :
    CongruentModP ((crcRound w).setWidth 16 <<< n) (w.setWidth 16 <<< (n + 1)) := by
  rw [Nat.add_comm, BitVec.shiftLeft_add, ← crcRound_setWidth, BitVec.shiftLeft_xor_distrib]
  cases w.getLsbD 7 with
  | false => exact ⟨0#8, by simp [timesP]⟩
  | true =>
    have hq : timesP (BitVec.twoPow 8 n) 8 = 0x0107#16 <<< n := by decide +revert
    exact ⟨BitVec.twoPow 8 n, by rw [hq]; rfl⟩

/-- `n` rounds leave the remainder of `w(x) · x^n`. -/
theorem congruent_crcRounds {n : Nat} (hn : n ≤ 8) (w : Byte) :
    CongruentModP ((crcRounds n w).setWidth 16) (w.setWidth 16 <<< n) := by
  induction n generalizing w with
  | zero =>
    rw [crcRounds, BitVec.shiftLeft_zero]
    exact .refl _
  | succ n ih => exact (ih (by omega) (crcRound w)).trans (congruent_crcRound w (by omega))

/-- The one-byte update is the remainder that R137 says it is. -/
theorem remainder_crc8 (d r : Byte) : RemainderOfShifted (r ^^^ d) (crc8 d r) :=
  congruent_crcRounds (Nat.le_refl 8) (r ^^^ d)

/-! ### The laws of the update (R139) -/

/-- A round as one sum: the shifted byte, and 0x07 as the bit shifted out says. -/
theorem crcRound_eq (w : Byte) : crcRound w = w <<< 1 ^^^ if w.getLsbD 7 then 0x07#8 else 0#8 := by
  rw [crcRound]
  split <;> simp

theorem crcRound_xor (v w : Byte) : crcRound (v ^^^ w) = crcRound v ^^^ crcRound w := by
  simp only [crcRound_eq, BitVec.shiftLeft_xor_distrib, BitVec.getLsbD_xor, ite_xor]
  ac_rfl

theorem crcRounds_xor (n : Nat) (v w : Byte) : crcRounds n (v ^^^ w) = crcRounds n v ^^^ crcRounds n w := by
  induction n generalizing v w with
  | zero => rfl
  | succ n ih => rw [crcRounds, crcRound_xor, ih, crcRounds, crcRounds]

/-- The bit shifted out comes back as bit 0, so a round loses nothing. -/
theorem crcRound_injective : Function.Injective crcRound := by
  intro v w h
  have bit_zero (u : Byte) : (crcRound u).getLsbD 0 = u.getLsbD 7 := by
    rw [crcRound_eq]
    cases hu : u.getLsbD 7 <;> simp
  have hout : v.getLsbD 7 = w.getLsbD 7 := by rw [← bit_zero, h, bit_zero]
  have hshift : v <<< 1 = w <<< 1 := by
    rw [crcRound_eq, crcRound_eq, hout] at h
    exact (BitVec.xor_left_inj _).1 h
  apply BitVec.eq_of_getLsbD_eq
  intro i hi
  obtain hlow | rfl : i < 7 ∨ i = 7 := by omega
  · have hbit := congrArg (BitVec.getLsbD · (i + 1)) hshift
    simpa [show i + 1 < 8 by omega, hi] using hbit
  · exact hout

theorem crcRounds_injective (n : Nat) : Function.Injective (crcRounds n) := by
  induction n with
  | zero => exact Function.injective_id
  | succ n ih => exact ih.comp crcRound_injective

@[simp] theorem crc8_self (b : Byte) : crc8 b b = 0#8 := by
  rw [crc8, BitVec.xor_self]
  rfl

theorem foldCrc_replicate_zero (n : Nat) : foldCrc 0#8 (List.replicate n 0#8) = 0#8 := by
  induction n with
  | zero => rfl
  | succ n ih => rw [List.replicate_succ, foldCrc, crc8_self, ih]

/-- Settles O26: the rounds are linear and lose nothing. -/
theorem crc8Laws : Obligations.Crc8Laws := by
  refine ⟨fun b r => ?onlyXor, fun b c => ?linear, crc8_self 0#8, fun r => ?bijective, foldCrc_replicate_zero⟩
  case onlyXor => rw [crc8, crc8, BitVec.zero_xor, BitVec.xor_comm]
  case linear => simp only [crc8, BitVec.zero_xor, crcRounds_xor]
  case bijective =>
    refine Finite.injective_iff_bijective.1 fun b c h => ?_
    exact (BitVec.xor_right_inj r).1 (crcRounds_injective 8 h)

/-! ### What the commands answer (R141 to R151) -/

section commands

variable (a : BusAddr) (c b p : Byte) (d : Half) (s : State)

theorem exec_crc8 : exec (.crc8 b p) s = .next (s.respond noFlags ((crc8 b p).setWidth 16)) := rfl

theorem exec_accClear : exec .accClear s = .next ((s.writeAcc 0x00#8).respond noFlags 0x0000#16) := rfl

theorem exec_accUpdate :
    exec (.accUpdate b) s = .next ((s.writeAcc (crc8 b s.acc)).respond noFlags ((crc8 b s.acc).setWidth 16)) := rfl

theorem exec_pecWriteByte :
    exec (.pecWriteByte a c b) s = .next (s.respond noFlags ((pecOf (frameWriteByte a c b)).setWidth 16)) := rfl

theorem exec_pecReadByte :
    exec (.pecReadByte a c b) s = .next (s.respond noFlags ((pecOf (frameReadByte a c b)).setWidth 16)) := rfl

theorem exec_pecReadWord :
    exec (.pecReadWord a c d) s = .next (s.respond noFlags ((pecOf (frameReadWord a c d)).setWidth 16)) := rfl

theorem exec_pecReadByteTest :
    exec (.pecReadByteTest a c b p) s = .next (s.respond noFlags (pecTestResult (frameReadByte a c b) p)) := rfl

end commands

/-- A response with `OP_ERR` 0 after writing ACC is all that changes. -/
theorem answers_writeAcc_respond (s : State) (v : Byte) {f : Flags} (hf : f.opErr = false) (r : Half) :
    Answers s ((s.writeAcc v).respond f r) v r f.whole f.descErr := by
  constructor <;> simp [hf]

/-- Settles O24: CRC8 answers the remainder that its rounds leave, and there is no other. -/
theorem crc8IsThePolynomialRemainder : Obligations.Crc8IsThePolynomialRemainder := by
  intro d r s
  exact ⟨_, exec_crc8 d r s, crc8 d r, answers_respond s rfl _, remainder_crc8 d r,
    fun _ hm => remainder_unique hm (remainder_crc8 d r)⟩

/-- Settles O25: a remainder is the one that the two commands answer. -/
theorem anyRemainderIsTheMachinesAnswer : Obligations.AnyRemainderIsTheMachinesAnswer := by
  intro d n s hn
  obtain rfl : n = crc8 d s.acc := remainder_unique hn (remainder_crc8 d s.acc)
  exact ⟨resultOf_of_exec (exec_crc8 d s.acc s), by simp [resultOf, exec_accUpdate], _, exec_accUpdate d s, rfl⟩

/-- Settles O27: ACC is written before the response, which is then all zeros. -/
theorem accClearClearsAcc : Obligations.AccClearClearsAcc := by
  intro s
  exact ⟨_, exec_accClear s, answers_writeAcc_respond s 0x00#8 rfl _, (by decide : packRsp noFlags 0#8 0#16 = 0#32)⟩

/-- Settles O28: ACC takes CRC8's answer, which is 0 for a byte equal to ACC. -/
theorem accUpdateFoldsTheByte : Obligations.AccUpdateFoldsTheByte := by
  intro d s
  refine ⟨_, crc8 d s.acc, exec_accUpdate d s, resultOf_of_exec (exec_crc8 d s.acc s),
    answers_writeAcc_respond s _ rfl _, remainder_crc8 d s.acc, ?_⟩
  rintro rfl
  exact crc8_self s.acc

/-! ### The PECs and their tests (R145 to R152) -/

theorem addrW_eq_ofNat (a : BusAddr) : addrW a = BitVec.ofNat 8 (2 * a.toNat) := by
  apply BitVec.eq_of_toNat_eq
  simp [addrW, Nat.shiftLeft_eq, Nat.mul_comm]

theorem addrR_eq_ofNat (a : BusAddr) : addrR a = BitVec.ofNat 8 (2 * a.toNat + 1) := by
  decide +revert

theorem lowByte_eq_ofNat (d : Half) : lowByte d = BitVec.ofNat 8 (d.toNat % 256) := by
  apply BitVec.eq_of_toNat_eq
  simp [lowByte, BitVec.extractLsb'_toNat]

theorem highByte_eq_ofNat (d : Half) : highByte d = BitVec.ofNat 8 (d.toNat / 256) := by
  apply BitVec.eq_of_toNat_eq
  simp [highByte, BitVec.extractLsb'_toNat, Nat.shiftRight_eq_div_pow]

theorem setWidth_eq_lowByte (d : Half) : d.setWidth 8 = lowByte d := by
  rw [lowByte_eq_ofNat]
  apply BitVec.eq_of_toNat_eq
  simp

/-- Settles O29: the frames' bytes are the ones given by number. -/
theorem pecWriteFoldsTheFrame : Obligations.PecWriteFoldsTheFrame := by
  intro a c d s
  rw [setWidth_eq_lowByte, ← addrW_eq_ofNat, ← lowByte_eq_ofNat, ← highByte_eq_ofNat]
  exact ⟨⟨_, exec_pecWriteByte a c _ s, answers_respond s rfl _⟩, ⟨_, exec_pecWriteWord a c d s, answers_respond s rfl _⟩⟩

/-- Settles O30: the frames' bytes are the ones given by number. -/
theorem pecReadFoldsTheFrame : Obligations.PecReadFoldsTheFrame := by
  intro a c d s
  rw [setWidth_eq_lowByte, ← addrW_eq_ofNat, ← addrR_eq_ofNat, ← lowByte_eq_ofNat, ← highByte_eq_ofNat]
  exact ⟨⟨_, exec_pecReadByte a c _ s, answers_respond s rfl _⟩, ⟨_, exec_pecReadWord a c d s, answers_respond s rfl _⟩⟩

/-- Settles O31: the test compares with the fold that the read operation answers. -/
theorem pecTestsCompareThePec : Obligations.PecTestsCompareThePec := by
  intro a c p s
  exact ⟨fun d => ⟨_, _, exec_pecReadByteTest a c d p s, resultOf_of_exec (exec_pecReadByte a c d s), answers_respond s rfl _⟩,
    fun d => ⟨_, _, exec_pecReadWordTest a c d p s, resultOf_of_exec (exec_pecReadWord a c d s), answers_respond s rfl _⟩⟩

theorem pecTestResult_pecOf (frame : List Byte) : pecTestResult frame (pecOf frame) = 0#16 := if_pos rfl

/-- A byte with a bit flipped is another byte, and a PEC test tells it from the PEC. -/
theorem pecTestResult_flipped (frame : List Byte) {i : Nat} (hi : i < 8) :
    pecTestResult frame (pecOf frame ^^^ (1#8 <<< i)) ≠ 0#16 := by
  have hflip : pecOf frame ≠ pecOf frame ^^^ (1#8 <<< i) := by
    intro h
    have hbit := congrArg (BitVec.getLsbD · i) h
    simp [hi] at hbit
  rw [pecTestResult, if_neg hflip]
  decide

/-- A test against the frame whose PEC is read passes for that PEC, and for no PEC with one bit flipped. -/
theorem read_test_round_trip {read : Instr} {test : Byte → Instr} {frame : List Byte} {s : State}
    (hread : resultOf read s = some ((pecOf frame).setWidth 16))
    (htest : ∀ e, resultOf (test e) s = some (pecTestResult frame e)) :
    ∃ e, resultOf read s = some e ∧ resultOf (test (e.setWidth 8)) s = some 0#16 ∧
      ∀ i < 8, ∃ x, resultOf (test (e.setWidth 8 ^^^ (1#8 <<< i))) s = some x ∧ x ≠ 0#16 := by
  refine ⟨_, hread, ?_⟩
  rw [BitVec.setWidth_setWidth_of_le _ (by decide), BitVec.setWidth_eq]
  exact ⟨(htest _).trans (congrArg some (pecTestResult_pecOf frame)), fun i hi => ⟨_, htest _, pecTestResult_flipped frame hi⟩⟩

/-- Settles O32: the word and the byte test each take the frame of their read operation. -/
theorem pecTestRoundTrip : Obligations.PecTestRoundTrip := by
  intro a c s
  exact ⟨fun d => read_test_round_trip (resultOf_of_exec (exec_pecReadWord a c d s))
      fun e => resultOf_of_exec (exec_pecReadWordTest a c d e s),
    fun d => read_test_round_trip (resultOf_of_exec (exec_pecReadByte a c d s))
      fun e => resultOf_of_exec (exec_pecReadByteTest a c d e s)⟩

/-! ### Streaming a frame through ACC (R142) -/

theorem accAfterWord_accClear (acc : Byte) : accAfterWord acc (encode .accClear) = 0x00#8 := by
  rw [accAfterWord, decodeInvertsEncode]

theorem accAfterWord_accUpdate (acc d : Byte) : accAfterWord acc (encode (.accUpdate d)) = crc8 d acc := by
  rw [accAfterWord, decodeInvertsEncode]

theorem foldl_accAfterWord_updateWords (frame : List Byte) (acc : Byte) :
    (updateWords frame).foldl accAfterWord acc = foldCrc acc frame := by
  induction frame generalizing acc with
  | nil => rfl
  | cons b bs ih =>
    rw [foldCrc, ← ih, ← accAfterWord_accUpdate]
    rfl

@[simp] theorem length_updateWords (frame : List Byte) : (updateWords frame).length = frame.length := List.length_map _

theorem run_updateWords {frame : List Byte} {s : State} {ws : List Command} (ht : s.turns = [])
    (hc : s.commands = updateWords frame ++ ws) :
    ∃ t, core.run frame.length s = .next t ∧ t.acc = foldCrc s.acc frame ∧ t.commands = ws := by
  obtain ⟨t, hrun, hacc, hcommands, -⟩ := accFollowsTheAccOperations _ _ s ht hc
  exact ⟨t, by simpa using hrun, by rw [hacc, foldl_accAfterWord_updateWords], hcommands⟩

theorem run_accClear_updateWords {frame : List Byte} {s : State} {ws : List Command} (ht : s.turns = [])
    (hc : s.commands = encode .accClear :: updateWords frame ++ ws) :
    ∃ t, core.run (frame.length + 1) s = .next t ∧ t.acc = pecOf frame ∧ t.commands = ws := by
  obtain ⟨t, hrun, hacc, hcommands, -⟩ := accFollowsTheAccOperations _ _ s ht hc
  rw [List.foldl_cons, accAfterWord_accClear, foldl_accAfterWord_updateWords] at hacc
  exact ⟨t, by simpa using hrun, hacc, hcommands⟩

/-- Settles O33: ACC is left with the fold of the frame from 0, which each of the four commands answers. -/
theorem streamedPecEqualsOneShotPec : Obligations.StreamedPecEqualsOneShotPec := by
  intro a c b d frame i hi s ws ht
  have hpec : resultOf i s = some ((pecOf frame).setWidth 16) := by
    simp only [List.mem_cons, Prod.mk.injEq, List.not_mem_nil, or_false] at hi
    obtain ⟨rfl, rfl⟩ | ⟨rfl, rfl⟩ | ⟨rfl, rfl⟩ | ⟨rfl, rfl⟩ := hi
    · exact resultOf_of_exec (exec_pecWriteByte a c b s)
    · exact resultOf_of_exec (exec_pecWriteWord a c d s)
    · exact resultOf_of_exec (exec_pecReadByte a c b s)
    · exact resultOf_of_exec (exec_pecReadWord a c d s)
  refine ⟨fun hc => ?cleared, fun hacc hc => ?fromZero⟩
  case cleared =>
    obtain ⟨t, hrun, htacc, hcommands⟩ := run_accClear_updateWords ht hc
    exact ⟨t, hrun, by rw [hpec, htacc], hcommands⟩
  case fromZero =>
    obtain ⟨t, hrun, htacc, hcommands⟩ := run_updateWords ht hc
    exact ⟨t, hrun, by rw [hpec, htacc, hacc, pecOf], hcommands⟩

end Sys2Proof.Machine
end

section
/-! PROOFS. The spoilt PEC (60_exceptions.md R174; 93_implementation_defined.md K10): ACC is one register for all hosts (R23), so two
streams that are both under way fold into one remainder. -/

namespace Sys2Proof.Machine

open Sys2Proof.Safety

/-- A host that has yet to clear ACC and to stream its frame through it (R142). -/
def streamingHost (frame : List Byte) : HostAgent :=
  { phase := .ready, calls := (encode .accClear :: updateWords frame).map .command, returned := [] }

/-- Two hosts with a frame of one byte each, which move in turn: both have cleared ACC before either updates it. -/
def interleavedStart (a b : Byte) : State :=
  { State.reset with
    hosts := [streamingHost [a], streamingHost [b]]
    turns := [.host 0, .host 1, .host 0, .host 1] }

theorem runCommand_accClear (s : State) : runCommand Config.policy (encode .accClear) s =
    .next ((s.writeAcc 0x00#8).respond noFlags 0x0000#16) :=
  (runCommand_command (decodeInvertsEncode .accClear) s).trans (exec_accClear s)

theorem runCommand_accUpdate (b : Byte) (s : State) : runCommand Config.policy (encode (.accUpdate b)) s =
    .next ((s.writeAcc (crc8 b s.acc)).respond noFlags ((crc8 b s.acc).setWidth 16)) :=
  (runCommand_command (decodeInvertsEncode (.accUpdate b)) s).trans (exec_accUpdate b s)

/-- Both hosts issue all their words, and ACC is left with the PEC of the two frames joined. -/
theorem run_interleavedStart (a b : Byte) : ∃ t, core.run 4 (interleavedStart a b) = .next t ∧
    (∀ x ∈ t.hosts, x.calls = []) ∧ t.acc = pecOf [a, b] :=
  ⟨_, run_succ 3 (step_begin_command (k := 0) rfl rfl rfl rfl (runCommand_accClear _))
    |>.trans (run_succ 2 (step_begin_command (k := 1) rfl rfl rfl rfl (runCommand_accClear _)))
    |>.trans (run_succ 1 (step_begin_command (k := 0) rfl rfl rfl rfl (runCommand_accUpdate a _)))
    |>.trans (run_succ 0 (step_begin_command (k := 1) rfl rfl rfl rfl (runCommand_accUpdate b _))),
    List.forall_mem_cons.2 ⟨rfl, List.forall_mem_singleton.2 rfl⟩, rfl⟩

/-- Settles O52: the frames 01 and 02 have the PECs 0x07 and 0x0E, and ACC is left with 0x1B, the PEC of 01 02. -/
theorem interleavedAccSequencesSpoilThePec : Obligations.InterleavedAccSequencesSpoilThePec := by
  obtain ⟨t, hrun, hcalls, hacc⟩ := run_interleavedStart 0x01#8 0x02#8
  refine ⟨_, t, 4, [0x01#8], [0x02#8], rfl, rfl, ?hostsTurns, hrun, hcalls, ?notA, ?notB⟩
  case hostsTurns => simp [interleavedStart]
  case notA | notB =>
    rw [hacc]
    simp [pecOf, foldCrc, crc8, crcRounds, crcRound]

end Sys2Proof.Machine
end

section
/-! PROOFS. Reset and the duties of hosts (70_reset_and_hazards.md): reset beside ACC_CLEAR (R188, R190), the idle block (R187), and
steps under kept duties (R191; 93_implementation_defined.md K2, K11), which complete alike under every policy. -/

namespace Sys2Proof.Machine

open Sys2Proof.Safety

/-! ### Reset (R188, R190) -/

/-- Settles O2: a reset clears ACC by O1, as ACC_CLEAR does. -/
theorem resetHasTheEffectOfAccClearOnAcc : Obligations.ResetHasTheEffectOfAccClearOnAcc := by
  intro s ts ht
  obtain ⟨-, -, hreset⟩ := resetClearsTheBlockOnly
  exact ⟨_, _, hreset s ts ht, exec_accClear s, rfl, rfl, rfl⟩

/-- Settles O38: a reset establishes the invariant, and of the state at reset it changes nothing. -/
theorem responseInvariantAtReset : Obligations.ResponseInvariantAtReset := responseInv_resetBlock State.reset

/-! ### The idle block (R187) -/

theorem busy_eq_false_iff (a : HostAgent) : a.busy = false ↔ a.phase = .ready ∧ a.calls = [] := by
  obtain ⟨ph, calls, rs⟩ := a
  cases ph <;> cases calls <;> simp [HostAgent.busy]

theorem firstBusy_eq_none {as : List HostAgent} (h : ∀ a ∈ as, a.busy = false) (k : Nat) : firstBusy k as = none := by
  induction as generalizing k with
  | nil => rfl
  | cons a as ih =>
    obtain ⟨ha, has⟩ := List.forall_mem_cons.1 h
    simp [firstBusy, ha, ih has]

theorem defaultTurn_idle {s : State} (hc : s.commands = []) (h : ∀ a ∈ s.hosts, a.busy = false) :
    defaultTurn s = .command := by
  simp [defaultTurn, hc, firstBusy_eq_none h]

/-- Settles O4: the default turn is the block's, which has no word to execute. -/
theorem idleBlockWaits : Obligations.IdleBlockWaits := by
  intro s ht hc hidle
  have hbusy : ∀ a ∈ s.hosts, a.busy = false := fun a ha => (busy_eq_false_iff a).2 (hidle a ha)
  rw [step, stepUnder_noTurn ht, defaultTurn_idle hc hbusy]
  exact commandTurn_nil hc

/-! ### The duties of the hosts (R191) -/

/-- A host that keeps its duties, in the procedure in progress and in the calls to come: what `DutiesKept` asks of each. -/
def SafeHost (a : HostAgent) : Prop := SafePhase a.phase ∧ ∀ c ∈ a.calls, SafeCall c

theorem dutiesKept_iff (s : State) : DutiesKept s ↔ (∀ w ∈ s.commands, SafeWord w) ∧ ∀ a ∈ s.hosts, SafeHost a := Iff.rfl

theorem dutiesKept_setHost {s : State} {b : HostAgent} (hs : DutiesKept s) (hb : SafeHost b) (k : Nat) :
    DutiesKept (s.setHost k b) := by
  obtain ⟨hcommands, hhosts⟩ := hs
  refine ⟨hcommands, fun a ha => ?_⟩
  obtain hmem | rfl := List.mem_or_eq_of_mem_set ha
  · exact hhosts a hmem
  · exact hb

theorem safeHost_finish {a : HostAgent} (ha : ∀ c ∈ a.calls, SafeCall c) (r : Returned) : SafeHost (a.finish r) :=
  ⟨trivial, ha⟩

theorem safeHost_goTo {a : HostAgent} {ph : Phase} (ha : ∀ c ∈ a.calls, SafeCall c) (hph : SafePhase ph) :
    SafeHost (a.goTo ph) :=
  ⟨hph, ha⟩

theorem safeWord_encode {i : Instr} (h : ValidDescriptor i) : SafeWord (encode i) := ⟨i, decodeInvertsEncode i, h⟩

theorem not_invalidWord_of_safeWord {w : Command} (h : SafeWord w) : ¬InvalidWord w := by
  rintro ⟨j, hj, hinvalid⟩
  obtain ⟨i, hi, hvalid⟩ := h
  cases hi.symm.trans hj
  exact hinvalid hvalid

/-! ### Completing with the duties kept, under every policy (K2, K11) -/

/-- Every policy gives the same next state, and the duties are kept in it. -/
def CompletesSafely (r : Policy → Result) : Prop := ∃ t, (∀ p, r p = .next t) ∧ DutiesKept t

theorem completesSafely_next {t : State} (ht : DutiesKept t) : CompletesSafely fun _ => .next t := ⟨t, fun _ => rfl, ht⟩

/-- No policy stops at a safe word: it is not reserved, and its descriptor is valid. -/
theorem runCommand_of_safeWord {w : Command} (h : SafeWord w) (p : Policy) (s : State) :
    runCommand p w s = runCommand Config.policy w s := by
  have hvalid := not_invalidWord_of_safeWord h
  obtain ⟨i, hd, -⟩ := h
  have hcompute : ∀ q, runCommand { reserved := q, descriptor := .compute } w s = runCommand Config.policy w s := fun q =>
    (runCommand_command hd s).trans (runCommand_command hd s).symm
  obtain ⟨q, d⟩ := p
  cases d with
  | compute => exact hcompute q
  | fault => exact (runCommand_fault_of_not_invalid hvalid q s).trans (hcompute q)

theorem runCommand_completesSafely {w : Command} {s : State} (hw : SafeWord w) (hs : DutiesKept s) :
    CompletesSafely (runCommand · w s) := by
  obtain ⟨u, hu⟩ := runCommand_completes w s
  refine ⟨u, fun p => (runCommand_of_safeWord hw p s).trans hu, ?_⟩
  obtain ⟨_, _, _, rfl, -⟩ := runCommand_next hu
  exact hs

/-- A move that executes a safe word, where its host then stands with its duties kept. -/
theorem andThen_runCommand_completesSafely {w : Command} {s : State} {k : Nat} {f : State → Result} (hw : SafeWord w)
    (hs : DutiesKept s) (hf : ∀ u, ∃ b, f u = .next (u.setHost k b) ∧ SafeHost b) :
    CompletesSafely fun p => andThen (runCommand p w s) f := by
  obtain ⟨u, hu, hkept⟩ := runCommand_completesSafely hw hs
  obtain ⟨b, hfu, hb⟩ := hf u
  exact ⟨u.setHost k b, fun p => (congrArg (andThen · f) (hu p)).trans hfu, dutiesKept_setHost hkept hb k⟩

/-- A safe call begins with a safe word, and leaves a procedure on the valid descriptor that it was called with. -/
theorem beginCall_completesSafely {a : HostAgent} {s : State} (k : Nat) (hs : DutiesKept s)
    (ha : ∀ c ∈ a.calls, SafeCall c) : CompletesSafely (beginCall · k a s) := by
  unfold beginCall
  match a.calls, ha with
  | [], _ => exact completesSafely_next hs
  | c :: cs, ha =>
    obtain ⟨hc, hcs⟩ := List.forall_mem_cons.1 ha
    cases c with
    | command w => exact andThen_runCommand_completesSafely hc hs fun _ => ⟨_, rfl, safeHost_finish hcs _⟩
    | readField h tag => exact andThen_runCommand_completesSafely (safeWord_encode hc) hs fun _ => ⟨_, rfl, hc, hcs⟩
    | writeField h tag value =>
      refine andThen_runCommand_completesSafely (safeWord_encode hc) hs (k := k) fun _ => ?_
      split <;> exact ⟨_, rfl, hc, hcs⟩

/-- A procedure's read ends the procedure, or goes on with it on the same descriptor. -/
theorem readAndContinue_completesSafely {a : HostAgent} {s : State} {failed : Status → Returned} {nxt : Half → Phase}
    (k : Nat) (h : Handle) (c : Byte) (hs : DutiesKept s) (ha : ∀ c ∈ a.calls, SafeCall c)
    (hnxt : ∀ d, SafePhase (nxt d)) : CompletesSafely fun _ => readAndContinue k a h c failed nxt s := by
  have hread : DutiesKept (s.transportRead h c) := hs
  obtain ⟨-, hr⟩ | ⟨-, hr⟩ := readAndContinue_cases k a h c failed nxt s
  · rw [hr]
    exact completesSafely_next (dutiesKept_setHost hread (safeHost_finish ha _) k)
  · rw [hr]
    exact completesSafely_next (dutiesKept_setHost hread (safeHost_goTo ha (hnxt _)) k)

theorem writeAndReturn_completesSafely {a : HostAgent} {s : State} (k : Nat) (h : Handle) (c : Byte) (d : Half)
    (hs : DutiesKept s) (ha : ∀ c ∈ a.calls, SafeCall c) : CompletesSafely fun _ => writeAndReturn k a h c d s :=
  completesSafely_next (dutiesKept_setHost (s := s.transportWrite h c d) hs (safeHost_finish ha _) k)

theorem moveHost_completesSafely {a : HostAgent} {s : State} (k : Nat) (hs : DutiesKept s) (ha : SafeHost a) :
    CompletesSafely (moveHost · k a s) := by
  obtain ⟨hphase, hcalls⟩ := ha
  unfold moveHost
  cases hp : a.phase <;> rw [hp] at hphase
  case ready => exact beginCall_completesSafely k hs hcalls
  case writeDirect | writeBack => exact writeAndReturn_completesSafely k _ _ _ hs hcalls
  case writeFetch | readFetch => exact readAndContinue_completesSafely k _ _ hs hcalls fun _ => hphase
  case writeMerge =>
    exact andThen_runCommand_completesSafely (safeWord_encode hphase) hs fun _ => ⟨_, rfl, safeHost_goTo hcalls hphase⟩
  case readExtract =>
    exact andThen_runCommand_completesSafely (safeWord_encode hphase) hs fun _ => ⟨_, rfl, safeHost_finish hcalls _⟩

theorem commandTurn_completesSafely {s : State} (hs : DutiesKept s) : CompletesSafely (commandTurn · s) := by
  cases hc : s.commands with
  | nil => simpa only [commandTurn_nil hc] using completesSafely_next hs
  | cons w ws =>
    obtain ⟨hcommands, hhosts⟩ := hs
    rw [hc] at hcommands
    obtain ⟨hw, hws⟩ := List.forall_mem_cons.1 hcommands
    simpa only [commandTurn_cons hc] using runCommand_completesSafely (s := { s with commands := ws }) hw ⟨hws, hhosts⟩

theorem hostTurn_completesSafely {s : State} (k : Nat) (hs : DutiesKept s) : CompletesSafely (hostTurn · k s) := by
  cases hk : s.hosts[k]? with
  | none => simpa only [hostTurn_of_none hk] using completesSafely_next hs
  | some a =>
    obtain ⟨-, hhosts⟩ := (dutiesKept_iff s).1 hs
    simpa only [hostTurn_of_some hk] using moveHost_completesSafely k hs (hhosts a (List.mem_of_getElem? hk))

/-- A reset touches no duty; the block and the hosts execute safe words alone. -/
theorem runTurn_completesSafely {s : State} (x : Turn) (hs : DutiesKept s) : CompletesSafely (runTurn · x s) := by
  cases x with
  | reset => exact completesSafely_next (t := s.resetBlock) hs
  | command => exact commandTurn_completesSafely hs
  | host k => exact hostTurn_completesSafely k hs

/-- Settles O42: the step is a turn, in a state with the same duties, and every policy takes that turn alike. -/
theorem keptDutiesNeverFault : Obligations.KeptDutiesNeverFault := by
  intro s hs
  obtain ⟨x, ts, -, hstep⟩ := stepUnder_eq_turn_of_executedWord s
  obtain ⟨t, hturn, ht⟩ := runTurn_completesSafely (s := { s with turns := ts }) x hs
  have hall : ∀ p, stepUnder p s = .next t := fun p => (hstep p).trans (hturn p)
  exact ⟨t, hall Config.strictPolicy, hall Config.policy, ht⟩

end Sys2Proof.Machine
end
